-- ==== Sys2Proof/Word.lean ====
section
/-! DEFINITION. The word types of the ring-buffer controller (00_scope.md R10, R11; 10_state.md R34, R38). -/

namespace Sys2Proof

/-- A 32-bit register, address or command word. All stored values are unsigned (R10). -/
abbrev Word := BitVec 32

/-- One byte of host memory (R13). -/
abbrev Byte := BitVec 8

/-- An offset into the 128-byte CSR window (R34). -/
abbrev CsrOffset := BitVec 7

end Sys2Proof
end

