-- ==== Sys2Proof/Config.lean ====
section
/-! DEFINITION. The implementation's parameters (00_scope.md R9): the two ports, and what the platform fixes. -/

namespace Sys2Proof

/-- The two command ports (NPORTS = 2, R9): the producer port P, index 0, and the consumer port C, index 1. -/
inductive Port where
  | P
  | C
deriving DecidableEq, Repr

/-- The `kind` of an engine access that MEM_ADMIT is asked about (20_memory.md R68). -/
inductive AccessKind where
  | read
  | write
deriving DecidableEq, Repr

/-- The parameters of R9 that an implementation or a platform fixes. No step changes them.
`wIndex` is W - 1, so that W is 1 to 32. `csrPage` is CSR_BASE / 0x80, so that CSR_BASE is a multiple of 0x80.
`withheld` lists the engine accesses for which MEM_ADMIT answers no: every predicate over addresses and kinds is
such a list. -/
structure Platform where
  wIndex   : Fin 32
  csrPage  : BitVec 25
  withheld : List (Word × AccessKind)
deriving DecidableEq, Repr

/-- What a byte of host memory that no cell lists reads as. MEM_INIT is OPEN (10_state.md R40); any power-up contents
are the cells of `State.mem`. DESIGN CHOICE 0x00, unsafe where a claim leans on an unlisted byte (log 4). -/
def Config.unlistedByte : Byte := 0

/-- The parameters of this hardware: W = 32 (R9). DESIGN CHOICE: CSR_BASE = 0x40000000 (log 5) and every engine access
admitted (log 6), both OPEN in R9. No statement of the model rests on these two values. -/
def Config.thisHardware : Platform :=
  { wIndex := 31, csrPage := 0x800000, withheld := [] }

end Sys2Proof
end

