-- ==== Sys2Proof/Syntax.lean ====
section
/-! DEFINITION. The ten commands, one constructor per row of the opcode table (30_encoding.md R93). -/

namespace Sys2Proof

/-- A command as it is issued. A command word has no operand fields (R92): the port whose CMD register it is written to
is its one operand, and names the ARG registers it reads. Both ports may be written with any word (R94, R96), so ENQ on
port C is a command too, one that fails with WRONG_PORT. -/
inductive Instr where
  | config (p : Port)
  | enq    (p : Port)
  | deq    (p : Port)
  | clear  (p : Port)
  | qocc   (p : Port)
  | qspace (p : Port)
  | qempty (p : Port)
  | qfull  (p : Port)
  | qcap   (p : Port)
  | qesize (p : Port)
deriving DecidableEq, Repr

end Sys2Proof
end

