-- ==== Sys2Proof/WellFormed.lean ====
section
/-! DEFINITION. Well-formed commands: those whose port may run them (30_encoding.md R94). An ill-formed command has its
encoding and its meaning all the same, namely the error WRONG_PORT. -/

namespace Sys2Proof

/-- The port a command is issued on (R92). -/
def Instr.port : Instr → Port
  | .config p => p
  | .enq p => p
  | .deq p => p
  | .clear p => p
  | .qocc p => p
  | .qspace p => p
  | .qempty p => p
  | .qfull p => p
  | .qcap p => p
  | .qesize p => p

/-- R94: ENQ is admitted only on port P and DEQ only on port C; every other command on both. -/
def Instr.wellFormed : Instr → Bool
  | .enq p => decide (p = .P)
  | .deq p => decide (p = .C)
  | .config _ => true
  | .clear _ => true
  | .qocc _ => true
  | .qspace _ => true
  | .qempty _ => true
  | .qfull _ => true
  | .qcap _ => true
  | .qesize _ => true

end Sys2Proof
end

