-- ==== Sys2Proof/Decode.lean ====
section
/-! DEFINITION. From a command word to a command and back (30_encoding.md R90 to R98). -/

namespace Sys2Proof

/-- Why a word is no command (R95). Both reasons are reported as the error ILLEGAL. -/
inductive DecodeReject where
  /-- RSVD, bits 31:8, is not zero. -/
  | reservedBits
  /-- OPC, bits 7:0, is 0x00, 0x05 to 0x0F or 0x16 to 0xFF. -/
  | unknownOpcode
deriving DecidableEq, Repr

/-- The field RSVD of a command word, bits 31:8 (R91). -/
def fieldRsvd (w : Word) : BitVec 24 := w.extractLsb' 8 24

/-- The field OPC of a command word, bits 7:0 (R91). -/
def fieldOpc (w : Word) : BitVec 8 := w.extractLsb' 0 8

/-- R93: the command an OPC value names, on the port the word was written to. The port does not change how a word
decodes (R98). -/
def decodeOpc (p : Port) (opc : BitVec 8) : Option Instr :=
  match opc.toNat with
  | 0x01 => some (.config p)
  | 0x02 => some (.enq p)
  | 0x03 => some (.deq p)
  | 0x04 => some (.clear p)
  | 0x10 => some (.qocc p)
  | 0x11 => some (.qspace p)
  | 0x12 => some (.qempty p)
  | 0x13 => some (.qfull p)
  | 0x14 => some (.qcap p)
  | 0x15 => some (.qesize p)
  | _ => none

/-- R95, R97: decoding is total, and a word outside R93 is rejected by name. -/
def decode (p : Port) (w : Word) : Except DecodeReject Instr :=
  if fieldRsvd w = 0 then
    match decodeOpc p (fieldOpc w) with
    | some i => .ok i
    | none => .error .unknownOpcode
  else .error .reservedBits

/-- R93: the OPC value of each command. -/
def opcode : Instr → BitVec 8
  | .config _ => 0x01
  | .enq _ => 0x02
  | .deq _ => 0x03
  | .clear _ => 0x04
  | .qocc _ => 0x10
  | .qspace _ => 0x11
  | .qempty _ => 0x12
  | .qfull _ => 0x13
  | .qcap _ => 0x14
  | .qesize _ => 0x15

/-- R91, R93: the command word 0x000000NN of a command. The port is not in the word: it is the register written. -/
def encode (i : Instr) : Word := (opcode i).setWidth 32

/-- The port a bare table word is read for. A word alone names no port. DESIGN CHOICE (log 14): the port that admits
it, which is C for the DEQ word and P for every other (R94). -/
def tableWordPort (w : Word) : Port :=
  if w = 0x00000003 then .C else .P

/-- The low `nbits` bits of `w`, as a command word. -/
def tableWord (nbits w : Nat) : Word := BitVec.ofNat 32 (w % 2 ^ nbits)

/-- The command the decoder reads from the table's bits. Every command word has 32 bits (R90). -/
def decodeTableWord (nbits w : Nat) : Option Instr :=
  if nbits ≤ 32 then
    match decode (tableWordPort (tableWord nbits w)) (tableWord nbits w) with
    | .ok i => some i
    | .error _ => none
  else none

end Sys2Proof
end

