-- ==== Sys2Proof/Machine/State.lean ====
section
/-! DEFINITION. The state of the ring-buffer controller and of the memory and the environment it works in
(10_state.md R20 to R40), and the state after reset. -/

namespace Sys2Proof.Machine

/-- The error codes of 60_exceptions.md R210, 0x0 to 0x7 in this order. The codes 0x8 to 0xF are never written. -/
inductive ErrCode where
  | ok
  | illegal
  | wrongPort
  | notConfigured
  | otherBusy
  | esizeZero
  | capNotPow2
  | capTooLarge
deriving DecidableEq, Repr

/-- The direction of a transfer (10_state.md R32): IN for ENQ, OUT for DEQ. -/
inductive Dir where
  | IN
  | OUT
deriving DecidableEq, Repr

/-- The record of a transfer in flight, XFER[p], with the field names of 10_state.md R32: `ext` the external address,
`n` elements, `B` bytes, `off` the physical offset of the first element, `F` the first leg's bytes, `k` bytes copied. -/
structure Xfer where
  dir : Dir
  ext : Word
  n   : Nat
  B   : Nat
  off : Nat
  F   : Nat
  k   : Nat
deriving DecidableEq, Repr

/-- The registers of one port (R20). BUSY[p] is "`xfer` is there": the record is meaningful only while BUSY[p] = 1,
and is discarded when it ends (log 8). -/
structure PortRegs where
  arg0   : Word
  arg1   : Word
  arg2   : Word
  result : Word
  ovr    : Bool
  err    : ErrCode
  xfer   : Option Xfer
deriving DecidableEq, Repr

/-- The buffer state, shared by both ports (R20). `wc` and `rc` hold W-bit cursors, zero-extended. -/
structure Buffer where
  cfg   : Bool
  base  : Word
  cap   : Word
  esize : Word
  wc    : Word
  rc    : Word
deriving DecidableEq, Repr

/-- Host memory: cells with strictly rising addresses below 2^32, none of them equal to what an unlisted address reads
as (`Memory.wf`). -/
abbrev Memory := List Host.Cell

/-- The width of a host access to the CSR window (R35). -/
inductive Width where
  | byte
  | half
  | word
deriving DecidableEq, Repr

/-- The registers of the CSR window (R34). -/
inductive Csr where
  | cmd    (p : Port)
  | arg0   (p : Port)
  | arg1   (p : Port)
  | arg2   (p : Port)
  | result (p : Port)
  | status (p : Port)
  | wcur
  | rcur
deriving DecidableEq, Repr

/-- One step of one agent, as the total order of 20_memory.md R70 lists it. -/
inductive Event where
  /-- A host reads the CSR window at an offset (R35). -/
  | csrRead (width : Width) (off : CsrOffset)
  /-- A host writes the CSR window at an offset (R35). A 32-bit write to a CMD register issues a command (R96). -/
  | csrWrite (width : Width) (off : CsrOffset) (value : Word)
  /-- A host reads one byte of host memory (`lb`, R99). -/
  | memRead (addr : Word)
  /-- A host writes one byte of host memory (`sb`, R99). -/
  | memWrite (addr : Word) (value : Byte)
  /-- A host reads STATUS[p] again and again until BUSY reads 0 (`wait.p`, `wait.c`, R99). -/
  | wait (p : Port)
  /-- Engine `p`'s turn: it takes its step, if it has one (41_transfer.md R147). -/
  | engine (p : Port)
  /-- The reset input is asserted (70_reset_and_hazards.md R250). -/
  | reset
deriving DecidableEq, Repr

/-- The whole state. `plat` holds the parameters that no step changes. `agenda` (the agents' steps still to come,
oldest first, log 1), `meanwhile` (the steps of other agents that fall between the polls of a `wait`, oldest first,
log 19) and `readData` (what the latest host read returned, log 3) are the model's own. -/
structure State where
  buf       : Buffer
  portP     : PortRegs
  portC     : PortRegs
  mem       : Memory
  plat      : Platform
  agenda    : List Event
  meanwhile : List Event
  readData  : Word
deriving DecidableEq, Repr

/-- Why a step can stop with a fault. The block itself has no fault (60_exceptions.md R226). No command, no turn of an
engine and no host access raises one. -/
inductive Fault where
  /-- No step of any agent is left: none is asked for, neither engine has a step, and port `p` is busy. That is the
  outcome "stuck" of 60_exceptions.md R226, not the end of a run (70_reset_and_hazards.md R263). Raised by `runOn`.
  Safe: nothing is claimed after it (log 9). -/
  | engineStuck (p : Port)
deriving DecidableEq, Repr

/-- Why a step is refused. -/
inductive Refusal where
  /-- A command with no meaning yet. Raised by `exec` for it. Safe. -/
  | notModelled (mnemonic : String)
  /-- A host access to the CSR window that is not 32 bits wide at a 4-byte-aligned offset: "the host step does not
  exist" (10_state.md R35). Raised by the host accesses. Safe: the spec admits no such step. -/
  | csrAccessForm
deriving DecidableEq, Repr

/-- A port's registers after hardware reset (10_state.md R40). -/
def PortRegs.reset : PortRegs :=
  { arg0 := 0, arg1 := 0, arg2 := 0, result := 0, ovr := false, err := .ok, xfer := none }

/-- The buffer state after hardware reset (10_state.md R40). -/
def Buffer.reset : Buffer :=
  { cfg := false, base := 0, cap := 0, esize := 0, wc := 0, rc := 0 }

/-- The machine right after reset (10_state.md R40, 70_reset_and_hazards.md R252): the block at its reset values, memory
with nothing listed (log 4), this hardware's parameters (logs 5, 6, 7), and no step asked for. -/
def State.reset : State :=
  { buf := Buffer.reset, portP := PortRegs.reset, portC := PortRegs.reset, mem := [], plat := Config.thisHardware,
    agenda := [], meanwhile := [], readData := 0 }

end Sys2Proof.Machine
end

