-- ==== Sys2Proof/Machine/Ops.lean ====
section
/-! DEFINITION. The named operations over parameters, cursors, memory and registers, and the one way a command fails
(00_scope.md R10 to R15, 10_state.md R26 to R36, 30_encoding.md R96). -/

namespace Sys2Proof

/-- `other(P) = C` and `other(C) = P` (R12). -/
def Port.other : Port → Port
  | .P => .C
  | .C => .P

/-- The cursor width W (R9). -/
def Platform.W (pl : Platform) : Nat := pl.wIndex.val + 1

/-- CSR_BASE (R9): a multiple of 0x80. -/
def Platform.csrBase (pl : Platform) : Word := BitVec.ofNat 32 (0x80 * pl.csrPage.toNat)

/-- Whether a host address lies in the CSR window, the 128 bytes at CSR_BASE (R34). -/
def Platform.inWindow (pl : Platform) (addr : Word) : Bool := decide ((addr - pl.csrBase).toNat < 0x80)

/-- MEM_ADMIT(addr, kind) (20_memory.md R68). -/
def Platform.memAdmit (pl : Platform) (addr : Word) (kind : AccessKind) : Bool := !pl.withheld.contains (addr, kind)

/-- `a +_32 k`: host-address arithmetic is mod 2^32 (20_memory.md R67). -/
def addrAdd (a : Word) (k : Nat) : Word := a + BitVec.ofNat 32 k

/-- `a +_W n = (a + n) mod 2^W` (R10). -/
def addW (W : Nat) (a : Word) (n : Nat) : Word := BitVec.ofNat 32 ((a.toNat + n) % 2 ^ W)

/-- `a -_W b = (a - b) mod 2^W` (R10), as an integer. With W at most 32, the difference mod 2^32 has the same
remainder. -/
def subW (W : Nat) (a b : Word) : Nat := (a - b).toNat % 2 ^ W

/-- `isPow2(n)`: n = 2^k for some k (R10). The only candidate for k is the binary logarithm. -/
def isPow2 (n : Nat) : Bool := 2 ^ Nat.log2 n == n

namespace Machine

/-! ### Memory -/

/-- The byte at an address: the listed one, else what an unlisted address reads as. -/
def Memory.read : Memory → Nat → Byte
  | [], _ => Config.unlistedByte
  | (b, v) :: m, a => if a = b then v else Memory.read m a

/-- List the byte `v` at address `a`, keeping addresses in rising order. -/
def Memory.insert (a : Nat) (v : Byte) : Memory → Memory
  | [] => [(a, v)]
  | (b, u) :: m =>
    if a < b then (a, v) :: (b, u) :: m
    else if a = b then (a, v) :: m
    else (b, u) :: Memory.insert a v m

/-- List no byte at address `a`. -/
def Memory.erase (a : Nat) (m : Memory) : Memory := m.filter (fun c => c.1 != a)

/-- Write the byte `v` at address `a`, keeping the canonical form: a byte equal to what an unlisted address reads as is
not listed. -/
def Memory.write (m : Memory) (a : Nat) (v : Byte) : Memory :=
  if v = Config.unlistedByte then Memory.erase a m else Memory.insert a v m

/-- The canonical form: addresses strictly rising and below 2^32, no cell equal to what an unlisted address reads as. -/
abbrev Memory.wf (m : Memory) : Prop :=
  m.Pairwise (fun c d => c.1 < d.1) ∧ ∀ c ∈ m, c.1 < 2 ^ 32 ∧ c.2 ≠ Config.unlistedByte

/-- `MemRead(addr, 1)` (R13). -/
def State.readByte (s : State) (addr : Word) : Byte := Memory.read s.mem addr.toNat

/-- `MemWrite(addr, 1, v)` (R13). -/
def State.writeByte (s : State) (addr : Word) (v : Byte) : State :=
  { s with mem := Memory.write s.mem addr.toNat v }

/-! ### Registers -/

/-- The registers of port `p`. -/
def State.port (s : State) : Port → PortRegs
  | .P => s.portP
  | .C => s.portC

/-- Replace the registers of port `p`. -/
def State.setPort (s : State) (p : Port) (r : PortRegs) : State :=
  match p with
  | .P => { s with portP := r }
  | .C => { s with portC := r }

/-- BUSY: a transfer is in flight (10_state.md R20, R31). -/
def PortRegs.busy (r : PortRegs) : Bool := r.xfer.isSome

/-- BUSY[p]. -/
def State.busy (s : State) (p : Port) : Bool := (s.port p).busy

/-- Replace XFER[p]; `none` is BUSY[p] = 0. -/
def State.setXfer (s : State) (p : Port) (x : Option Xfer) : State := s.setPort p { s.port p with xfer := x }

/-- Replace OVR[p]. -/
def State.setOvr (s : State) (p : Port) (b : Bool) : State := s.setPort p { s.port p with ovr := b }

/-- Write RESULT[p] (10_state.md R30). -/
def State.setResult (s : State) (p : Port) (v : Word) : State := s.setPort p { s.port p with result := v }

/-- Write ERR[p] (10_state.md R31). -/
def State.setErr (s : State) (p : Port) (e : ErrCode) : State := s.setPort p { s.port p with err := e }

/-! ### Names derived from the buffer state (R15) -/

/-- `CAPB = CAP * ESIZE`. -/
def Buffer.capBytes (b : Buffer) : Nat := b.cap.toNat * b.esize.toNat

/-- `phys(pos) = (pos & MASK) * ESIZE`, with `MASK = CAP - 1`. -/
def Buffer.phys (b : Buffer) (pos : Word) : Nat := (pos.toNat &&& (b.cap.toNat - 1)) * b.esize.toNat

/-- `occ = WC -_W RC`. -/
def State.occ (s : State) : Nat := subW s.plat.W s.buf.wc s.buf.rc

/-- The free space, `CAP - occ`. DESIGN CHOICE 0 where occ is above CAP, which no run reaches (log 15). -/
def State.free (s : State) : Nat := s.buf.cap.toNat - s.occ

/-- The host address of backing byte `j`, `BASE +_32 j` (20_memory.md R67). -/
def State.backingAddr (s : State) (j : Nat) : Word := addrAdd s.buf.base j

/-! ### Issuing a command, failing and completing -/

/-- `raise CmdError(code)` (R14, 60_exceptions.md R215): ERR[p] <- code, RESULT[p] <- 0, and nothing else. It is no
trap: nothing is saved, no control is transferred, and there is nothing to return from (R216). -/
def raise (p : Port) (code : ErrCode) (s : State) : State := (s.setErr p code).setResult p 0

/-- A command completes in its issue step: ERR[p] <- OK and RESULT[p] <- v (10_state.md R30). -/
def finish (p : Port) (v : Word) (s : State) : State := (s.setErr p .ok).setResult p v

/-- The first lines of `issue(p, w)` (30_encoding.md R96): a word written to a busy port is dropped and sets OVR[p]
(60_exceptions.md R213); any other is accepted, which clears OVR[p]. -/
def accept (p : Port) (body : State → State) (s : State) : Host.Outcome State Fault Refusal :=
  if s.busy p then .next (s.setOvr p true) else .next (body (s.setOvr p false))

/-- The checks of `issue(p, w)` after decoding (30_encoding.md R96), in their order (60_exceptions.md R212), then the
command's own issue part. `admitted`: the port may run the command (R94). `needsBuffer`: it fails while CFG = 0.
`needsOtherIdle`: it fails while the other port is busy. -/
def issue (p : Port) (admitted needsBuffer needsOtherIdle : Bool) (perform : State → State) :
    State → Host.Outcome State Fault Refusal :=
  accept p fun s =>
    if !admitted then raise p .wrongPort s
    else if needsBuffer && !s.buf.cfg then raise p .notConfigured s
    else if needsOtherIdle && s.busy p.other then raise p .otherBusy s
    else perform s

end Machine
end Sys2Proof
end

