-- ==== Sys2Proof/Machine/Operands.lean ====
section
/-! DEFINITION. The operands of a command: the issuing port's argument registers, each a 32-bit unsigned value used as
is, read once at issue (30_encoding.md R92, 10_state.md R22). -/

namespace Sys2Proof.Machine

/-- CONFIG's `base`: the host address of the backing region, ARG0[p]. -/
def operandBase (p : Port) (s : State) : Word := (s.port p).arg0

/-- CONFIG's `L`: the byte length of the backing region, ARG1[p]. -/
def operandLength (p : Port) (s : State) : Word := (s.port p).arg1

/-- CONFIG's `E`: the element size in bytes, ARG2[p]. -/
def operandElementSize (p : Port) (s : State) : Word := (s.port p).arg2

/-- ENQ's `src` or DEQ's `dst`: the host address of the external buffer, ARG0[p]. -/
def operandExternal (p : Port) (s : State) : Word := (s.port p).arg0

/-- ENQ's or DEQ's `len`: the elements requested, ARG1[p]. -/
def operandCount (p : Port) (s : State) : Word := (s.port p).arg1

end Sys2Proof.Machine
end

