-- ==== Sys2Proof/Machine/Construction.lean ====
section
/-! DEFINITION. CONFIG: construct the buffer (40_construction.md R120 to R127). -/

namespace Sys2Proof.Machine

/-- CONFIG's capacity in elements: floor(L / E) (R122). -/
def configCapacity (p : Port) (s : State) : Nat := (operandLength p s).toNat / (operandElementSize p s).toNat

/-- The buffer a successful CONFIG builds (R121): the new configuration, both cursors 0, CFG = 1. -/
def configuredBuffer (p : Port) (s : State) : Buffer :=
  { cfg := true, base := operandBase p s, cap := BitVec.ofNat 32 (configCapacity p s),
    esize := operandElementSize p s, wc := 0, rc := 0 }

/-- The issue part of CONFIG (R121). A failed check leaves the buffer as it was (R124). -/
def configBody (p : Port) (s : State) : State :=
  if operandElementSize p s = 0 then raise p .esizeZero s
  else if !isPow2 (configCapacity p s) then raise p .capNotPow2 s
  else if 2 ^ (s.plat.W - 1) < configCapacity p s then raise p .capTooLarge s
  else finish p (BitVec.ofNat 32 (configCapacity p s)) { s with buf := configuredBuffer p s }

/-- CONFIG on port `p` (R120): admitted on both ports, also while CFG = 0; the other port must be idle. -/
def execConfig (p : Port) (s : State) : Host.Outcome State Fault Refusal :=
  issue p true false true (configBody p) s

end Sys2Proof.Machine
end

