-- ==== Sys2Proof/Machine/Queries.lean ====
section
/-! DEFINITION. The six queries and CLEAR (42_queries.md R180 to R188). -/

namespace Sys2Proof.Machine

/-- A query (R180): it completes in its issue step with a value of the committed buffer state, on either port, whether
or not the other port is busy. -/
def query (p : Port) (value : State → Word) : State → Host.Outcome State Fault Refusal :=
  issue p true true false fun s => finish p (value s) s

/-- QOCC (R181): the occupancy. -/
def execQocc (p : Port) (s : State) : Host.Outcome State Fault Refusal :=
  query p (fun s => BitVec.ofNat 32 s.occ) s

/-- QSPACE (R182): the free space. -/
def execQspace (p : Port) (s : State) : Host.Outcome State Fault Refusal :=
  query p (fun s => BitVec.ofNat 32 s.free) s

/-- QEMPTY (R183): 1 iff the cursors are equal. -/
def execQempty (p : Port) (s : State) : Host.Outcome State Fault Refusal :=
  query p (fun s => if s.buf.wc = s.buf.rc then 1 else 0) s

/-- QFULL (R184, 90_conflicts.md C1): 1 iff the occupancy equals the capacity. -/
def execQfull (p : Port) (s : State) : Host.Outcome State Fault Refusal :=
  query p (fun s => if s.occ = s.buf.cap.toNat then 1 else 0) s

/-- QCAP (R185): the capacity in elements. -/
def execQcap (p : Port) (s : State) : Host.Outcome State Fault Refusal :=
  query p (fun s => s.buf.cap) s

/-- QESIZE (R186): the element size in bytes. -/
def execQesize (p : Port) (s : State) : Host.Outcome State Fault Refusal :=
  query p (fun s => s.buf.esize) s

/-- The issue part of CLEAR (R187): both cursors 0, RESULT[p] <- 0. -/
def clearBody (p : Port) (s : State) : State :=
  finish p 0 { s with buf := { s.buf with wc := 0, rc := 0 } }

/-- CLEAR (R187): admitted on both ports; the buffer must be configured and the other port idle. -/
def execClear (p : Port) (s : State) : Host.Outcome State Fault Refusal :=
  issue p true true true (clearBody p) s

end Sys2Proof.Machine
end

