-- ==== Sys2Proof/Machine/Transfer.lean ====
section
/-! DEFINITION. ENQ and DEQ: their issue, and the engines' copy and completion steps (41_transfer.md R140 to R154). -/

namespace Sys2Proof.Machine

/-! ### The wraparound split copy -/

/-- `plan(pos, n)` (R140): the transfer of `n` elements from cursor value `pos`, before its first copy step. -/
def planXfer (b : Buffer) (dir : Dir) (ext : Word) (pos : Word) (n : Nat) : Xfer :=
  { dir := dir, ext := ext, n := n, B := n * b.esize.toNat, off := b.phys pos,
    F := min (n * b.esize.toNat) (b.capBytes - b.phys pos), k := 0 }

/-- `bo(k)` (R141): the backing offset of byte `k` of a transfer, the first leg from `off` and the second leg from the
front of the store. -/
def backingOffset (x : Xfer) (k : Nat) : Nat := if k < x.F then x.off + k else k - x.F

/-! ### Issue -/

/-- A transfer starts (R142, R150): XFER[p] is latched, which sets BUSY[p], and ERR[p] <- OK. RESULT[p] keeps its value
until completion (10_state.md R30). -/
def startTransfer (p : Port) (x : Xfer) (s : State) : State := (s.setXfer p (some x)).setErr p .ok

/-- The issue part of ENQ (R142): at most the free space, from the committed cursors. -/
def enqBody (p : Port) (s : State) : State :=
  startTransfer p (planXfer s.buf .IN (operandExternal p s) s.buf.wc (min (operandCount p s).toNat s.free)) s

/-- The issue part of DEQ (R150): at most the elements available, from the committed cursors. -/
def deqBody (p : Port) (s : State) : State :=
  startTransfer p (planXfer s.buf .OUT (operandExternal p s) s.buf.rc (min (operandCount p s).toNat s.occ)) s

/-- ENQ (R142): admitted on port P only (30_encoding.md R94). -/
def execEnq (p : Port) (s : State) : Host.Outcome State Fault Refusal :=
  issue p (decide (p = .P)) true false (enqBody p) s

/-- DEQ (R150): admitted on port C only (30_encoding.md R94). -/
def execDeq (p : Port) (s : State) : Host.Outcome State Fault Refusal :=
  issue p (decide (p = .C)) true false (deqBody p) s

/-! ### The engines' steps: `none` is "the step does not exist" -/

/-- A copy step (R143, R151): one byte read and then written, with both accesses admitted first (20_memory.md R68). -/
def copyStep (p : Port) (x : Xfer) (src dst : Word) (s : State) : Option State :=
  if s.plat.memAdmit src .read && s.plat.memAdmit dst .write then
    some ((s.writeByte dst (s.readByte src)).setXfer p (some { x with k := x.k + 1 }))
  else none

/-- The host address of the external byte a copy step names, `ext +_32 k` (R141). -/
def externalAddr (x : Xfer) : Word := addrAdd x.ext x.k

/-- The host address of the backing byte a copy step names, `BASE +_32 bo(k)` (R141). -/
def storeAddr (s : State) (x : Xfer) : Word := s.backingAddr (backingOffset x x.k)

/-- ENQ's copy step (R143): from the external buffer into the backing store. -/
def enqCopy (x : Xfer) (s : State) : Option State :=
  copyStep .P x (externalAddr x) (storeAddr s x) s

/-- DEQ's copy step (R151): from the backing store into the external buffer. -/
def deqCopy (x : Xfer) (s : State) : Option State :=
  copyStep .C x (storeAddr s x) (externalAddr x) s

/-- The end of a transfer on port `p`: RESULT[p] <- n and BUSY[p] <- 0 (R144, R152). -/
def endTransfer (p : Port) (x : Xfer) (s : State) : State :=
  (s.setXfer p none).setResult p (BitVec.ofNat 32 x.n)

/-- ENQ's completion step (R144): WC advances by n, mod 2^W. -/
def enqComplete (x : Xfer) (s : State) : Option State :=
  some (endTransfer .P x { s with buf := { s.buf with wc := addW s.plat.W s.buf.wc x.n } })

/-- DEQ's completion step (R152): RC advances by n, mod 2^W. -/
def deqComplete (x : Xfer) (s : State) : Option State :=
  some (endTransfer .C x { s with buf := { s.buf with rc := addW s.plat.W s.buf.rc x.n } })

/-- Engine P's step for its record (R147). -/
def engineStepP (x : Xfer) (s : State) : Option State :=
  if x.dir = .IN ∧ x.k < x.B then enqCopy x s
  else if x.dir = .IN ∧ x.k = x.B then enqComplete x s
  else none

/-- Engine C's step for its record (R147). -/
def engineStepC (x : Xfer) (s : State) : Option State :=
  if x.dir = .OUT ∧ x.k < x.B then deqCopy x s
  else if x.dir = .OUT ∧ x.k = x.B then deqComplete x s
  else none

/-- Engine `p`'s one step (R147). It has none while BUSY[p] = 0, and none while MEM_ADMIT refuses its next access:
it is then stuck (20_memory.md R68, log 9). -/
def engineStep (p : Port) (s : State) : Option State :=
  match (s.port p).xfer with
  | none => none
  | some x =>
    match p with
    | .P => engineStepP x s
    | .C => engineStepC x s

end Sys2Proof.Machine
end

