-- ==== Sys2Proof/Machine/Dispatch.lean ====
section
/-! DEFINITION. The meaning of each command, one arm per constructor (30_encoding.md R93, R96). -/

namespace Sys2Proof.Machine

def exec (i : Instr) (s : State) : Host.Outcome State Fault Refusal :=
  match i with
  | .config p => Sys2Proof.Machine.execConfig p s
  | .enq p => Sys2Proof.Machine.execEnq p s
  | .deq p => Sys2Proof.Machine.execDeq p s
  | .clear p => Sys2Proof.Machine.execClear p s
  | .qocc p => Sys2Proof.Machine.execQocc p s
  | .qspace p => Sys2Proof.Machine.execQspace p s
  | .qempty p => Sys2Proof.Machine.execQempty p s
  | .qfull p => Sys2Proof.Machine.execQfull p s
  | .qcap p => Sys2Proof.Machine.execQcap p s
  | .qesize p => Sys2Proof.Machine.execQesize p s

end Sys2Proof.Machine
end

