-- ==== Sys2Proof/Machine/Flags.lean ====
section
/-! DEFINITION. The STATUS word and the error codes in it (10_state.md R31, 60_exceptions.md R210). The block has no
condition codes (R33). -/

namespace Sys2Proof.Machine

/-- The 4-bit code of an error (60_exceptions.md R210). -/
def ErrCode.code : ErrCode → BitVec 4
  | .ok => 0x0
  | .illegal => 0x1
  | .wrongPort => 0x2
  | .notConfigured => 0x3
  | .otherBusy => 0x4
  | .esizeZero => 0x5
  | .capNotPow2 => 0x6
  | .capTooLarge => 0x7

/-- A one-bit field, as a word. -/
def bitWord (b : Bool) : Word := if b then 1 else 0

/-- A STATUS word from its fields (R31): BUSY bit 0, OVR bit 1, CFG bit 2, ERR bits 7:4, every other bit 0. -/
def statusWord (busy ovr cfg : Bool) (err : ErrCode) : Word :=
  bitWord busy ||| (bitWord ovr <<< 1) ||| (bitWord cfg <<< 2) ||| (err.code.setWidth 32 <<< 4)

/-- STATUS[p] (R31). CFG is a live copy of the buffer's bit, the same on both ports. -/
def State.status (s : State) (p : Port) : Word :=
  statusWord (s.busy p) (s.port p).ovr s.buf.cfg (s.port p).err

end Sys2Proof.Machine
end

