-- ==== Sys2Proof/Machine/Bus.lean ====
section
/-! DEFINITION. What a host and the platform do to the block: CSR accesses, command issue, byte accesses to host memory
and hardware reset (10_state.md R34 to R36, 30_encoding.md R96, R99, 70_reset_and_hazards.md R250). -/

namespace Sys2Proof.Machine

/-! ### The CSR map (R34) -/

/-- The offset of a register in the CSR window. -/
def Csr.offset : Csr → CsrOffset
  | .cmd .P => 0x00
  | .arg0 .P => 0x04
  | .arg1 .P => 0x08
  | .arg2 .P => 0x0C
  | .result .P => 0x10
  | .status .P => 0x14
  | .cmd .C => 0x20
  | .arg0 .C => 0x24
  | .arg1 .C => 0x28
  | .arg2 .C => 0x2C
  | .result .C => 0x30
  | .status .C => 0x34
  | .wcur => 0x40
  | .rcur => 0x44

/-- The register at an offset; none at an unmapped one. -/
def csrAt (off : CsrOffset) : Option Csr :=
  match off.toNat with
  | 0x00 => some (.cmd .P)
  | 0x04 => some (.arg0 .P)
  | 0x08 => some (.arg1 .P)
  | 0x0C => some (.arg2 .P)
  | 0x10 => some (.result .P)
  | 0x14 => some (.status .P)
  | 0x20 => some (.cmd .C)
  | 0x24 => some (.arg0 .C)
  | 0x28 => some (.arg1 .C)
  | 0x2C => some (.arg2 .C)
  | 0x30 => some (.result .C)
  | 0x34 => some (.status .C)
  | 0x40 => some .wcur
  | 0x44 => some .rcur
  | _ => none

/-- The value a register reads as. CMD reads 0 (R35); WCUR and RCUR show the committed cursors (R36). -/
def Csr.value (s : State) : Csr → Word
  | .cmd _ => 0
  | .arg0 p => (s.port p).arg0
  | .arg1 p => (s.port p).arg1
  | .arg2 p => (s.port p).arg2
  | .result p => (s.port p).result
  | .status p => s.status p
  | .wcur => s.buf.wc
  | .rcur => s.buf.rc

/-- A read of the window at an offset: an unmapped offset returns 0 (R35). -/
def csrValueAt (s : State) (off : CsrOffset) : Word :=
  match csrAt off with
  | some c => c.value s
  | none => 0

/-! ### Command issue (30_encoding.md R96) -/

/-- The issue of a word that is no command (30_encoding.md R95): dropped on a busy port, else the error ILLEGAL. -/
def issueIllegal (p : Port) : State → Host.Outcome State Fault Refusal := accept p (raise p .illegal)

/-- `issue(p, w)`: a host writes word `w` to port `p`'s CMD register. -/
def writeCmd (p : Port) (w : Word) (s : State) : Host.Outcome State Fault Refusal :=
  match decode p w with
  | .ok i => exec i s
  | .error _ => issueIllegal p s

/-! ### CSR accesses (R35) -/

/-- Replace ARG0[p]. -/
def State.setArg0 (s : State) (p : Port) (v : Word) : State := s.setPort p { s.port p with arg0 := v }

/-- Replace ARG1[p]. -/
def State.setArg1 (s : State) (p : Port) (v : Word) : State := s.setPort p { s.port p with arg1 := v }

/-- Replace ARG2[p]. -/
def State.setArg2 (s : State) (p : Port) (v : Word) : State := s.setPort p { s.port p with arg2 := v }

/-- A 32-bit write to a register: CMD issues, ARG stores at once, also while the port is busy (R22), and a read-only
register ignores it (R35). -/
def writeCsr (c : Csr) (v : Word) (s : State) : Host.Outcome State Fault Refusal :=
  match c with
  | .cmd p => writeCmd p v s
  | .arg0 p => .next (s.setArg0 p v)
  | .arg1 p => .next (s.setArg1 p v)
  | .arg2 p => .next (s.setArg2 p v)
  | .result _ => .next s
  | .status _ => .next s
  | .wcur => .next s
  | .rcur => .next s

/-- The only accesses the window admits: 32 bits wide at a 4-byte-aligned offset (R35). -/
def csrAccessAdmitted (width : Width) (off : CsrOffset) : Bool :=
  decide (width = .word) && decide (off.toNat % 4 = 0)

/-- A host read of the CSR window. It has no side effect on the block (R35). -/
def hostCsrRead (width : Width) (off : CsrOffset) (s : State) : Host.Outcome State Fault Refusal :=
  if csrAccessAdmitted width off then .next { s with readData := csrValueAt s off } else .refused .csrAccessForm

/-- A host write to the CSR window. A write to an unmapped offset is ignored (R35). -/
def hostCsrWrite (width : Width) (off : CsrOffset) (v : Word) (s : State) : Host.Outcome State Fault Refusal :=
  if csrAccessAdmitted width off then
    match csrAt off with
    | some c => writeCsr c v s
    | none => .next s
  else .refused .csrAccessForm

/-! ### Host memory (00_scope.md R13, 30_encoding.md R99) -/

/-- A host byte read, `lb`. An address in the CSR window is a narrow CSR access, refused (R35, log 12). -/
def hostMemRead (addr : Word) (s : State) : Host.Outcome State Fault Refusal :=
  if s.plat.inWindow addr then .refused .csrAccessForm
  else .next { s with readData := (s.readByte addr).setWidth 32 }

/-- A host byte write, `sb`. An address in the CSR window is a narrow CSR access, refused (R35, log 12). -/
def hostMemWrite (addr : Word) (v : Byte) (s : State) : Host.Outcome State Fault Refusal :=
  if s.plat.inWindow addr then .refused .csrAccessForm else .next (s.writeByte addr v)

/-! ### Hardware reset (70_reset_and_hazards.md R250) -/

/-- Every piece of the block's state takes its reset value; transfers in flight are discarded; host memory is not
touched, so the bytes an abandoned transfer wrote stay (R251). -/
def hardwareReset (s : State) : State :=
  { s with buf := Buffer.reset, portP := PortRegs.reset, portC := PortRegs.reset }

end Sys2Proof.Machine
end

