-- ==== Sys2Proof/Machine/Agents.lean ====
section
/-! DEFINITION. One agent's step (00_scope.md R8, 20_memory.md R70, 30_encoding.md R99). -/

namespace Sys2Proof.Machine

/-- Engine `p`'s turn (41_transfer.md R147): its step, if it has one. An engine without a step lets its turn pass, and
the other agents go on (20_memory.md R68, logs 9, 10). -/
def engineTurn (p : Port) (s : State) : State := (engineStep p s).getD s

/-- One read of the loop of `wait.p` or `wait.c` (30_encoding.md R99): STATUS[p] is read, and while its bit 0 is 1 the
loop goes on. Before the next read the other agents go on: the next step of `meanwhile` is taken (log 19), or, where it
lists none, each engine has a turn (weak fairness, 70_reset_and_hazards.md R262; DESIGN CHOICE, log 2). A `wait` on a
stuck port polls for ever (60_exceptions.md R226, hang), until a reset in `meanwhile` releases it. -/
def waitPoll (p : Port) (s : State) : State :=
  if s.busy p then
    match s.meanwhile with
    | [] => { s with readData := s.status p, agenda := .engine .P :: .engine .C :: .wait p :: s.agenda }
    | e :: later => { s with readData := s.status p, meanwhile := later, agenda := e :: .wait p :: s.agenda }
  else { s with readData := s.status p }

/-- The step an event names, the event itself already taken off the agenda. -/
def perform (e : Event) (s : State) : Host.Outcome State Fault Refusal :=
  match e with
  | .csrRead width off => hostCsrRead width off s
  | .csrWrite width off v => hostCsrWrite width off v s
  | .memRead addr => hostMemRead addr s
  | .memWrite addr v => hostMemWrite addr v s
  | .wait p => .next (waitPoll p s)
  | .engine p => .next (engineTurn p s)
  | .reset => .next (hardwareReset s)

/-- What happens when no step is asked for: an engine with a step takes it (weak fairness, 41_transfer.md R147,
70_reset_and_hazards.md R262), P before C (DESIGN CHOICE, log 2). With both engines idle the run is over (R263) and the
block holds its state (60_exceptions.md R225). Where neither engine has a step and one is busy, no step is left: stuck
(R226, log 9). -/
def runOn (s : State) : Host.Outcome State Fault Refusal :=
  match engineStep .P s, engineStep .C s with
  | some t, _ => .next t
  | none, some t => .next t
  | none, none =>
    if s.busy .P then .fault (.engineStuck .P)
    else if s.busy .C then .fault (.engineStuck .C)
    else .next s

end Sys2Proof.Machine
end

