-- ==== Sys2Proof/Machine/Step.lean ====
section
/-! DEFINITION. One step of the machine, and how a command word is put where the next step takes it from. -/

namespace Sys2Proof.Machine

/-- The next step in the total order of 20_memory.md R70: the first event of the agenda, else what the engines do on
their own. -/
def step (s : State) : Host.Outcome State Fault Refusal :=
  match s.agenda with
  | [] => runOn s
  | e :: rest => perform e { s with agenda := rest }

/-- `s` with a host write of the table's word to a CMD register as the very next step. The block fetches no
instructions (10_state.md R23): a command reaches it as such a write, and this stands for the host that makes it
(log 16). The port is the one that admits the word (`tableWordPort`, log 14). -/
def State.withFetchWord (s : State) (nbits w : Nat) : State :=
  { s with agenda :=
      .csrWrite .word (Csr.offset (.cmd (tableWordPort (tableWord nbits w)))) (tableWord nbits w) :: s.agenda }

end Sys2Proof.Machine
end

