-- ==== Sys2Proof/Safety.lean ====
section
/-! DEFINITION. The terms the statements about whole runs use: the invariant, the reachable states, and what passes
through the buffer in a run. -/

namespace Sys2Proof.Machine

/-- What holds of the configuration while CFG = 1 (10_state.md R26, R28). -/
structure Configured (s : State) : Prop where
  cap_pow2   : isPow2 s.buf.cap.toNat = true
  cap_le     : s.buf.cap.toNat ≤ 2 ^ (s.plat.W - 1)
  esize_pos  : 0 < s.buf.esize.toNat
  bytes_fit  : s.buf.capBytes ≤ 2 ^ 32 - 1
  occ_le     : s.occ ≤ s.buf.cap.toNat

/-- What holds of a record in flight for `n` elements from cursor value `pos` (10_state.md R32, 41_transfer.md R140). -/
structure Planned (b : Buffer) (dir : Dir) (pos : Word) (x : Xfer) : Prop where
  dir_eq : x.dir = dir
  B_eq   : x.B = x.n * b.esize.toNat
  off_eq : x.off = b.phys pos
  F_eq   : x.F = min x.B (b.capBytes - x.off)
  k_le   : x.k ≤ x.B

/-- The invariant of the controller. -/
structure Inv (s : State) : Prop where
  mem_wf     : Memory.wf s.mem
  wc_lt      : s.buf.wc.toNat < 2 ^ s.plat.W
  rc_lt      : s.buf.rc.toNat < 2 ^ s.plat.W
  idle       : s.buf.cfg = false → s.buf = Buffer.reset ∧ s.portP.xfer = none ∧ s.portC.xfer = none
  configured : s.buf.cfg = true → Configured s
  enq        : ∀ x, s.portP.xfer = some x →
                 Planned s.buf .IN s.buf.wc x ∧ x.n + s.occ ≤ s.buf.cap.toNat ∧ s.portP.err = .ok
  deq        : ∀ x, s.portC.xfer = some x →
                 Planned s.buf .OUT s.buf.rc x ∧ x.n ≤ s.occ ∧ s.portC.err = .ok

/-- The state at power-up (70_reset_and_hazards.md R252): the block in its reset state, memory holding any MEM_INIT, on
any platform, with any order of agents' steps to come, those that fall into waits included. -/
def powerUp (pl : Platform) (memInit : Memory) (agenda meanwhile : List Event) : State :=
  { State.reset with plat := pl, mem := memInit, agenda := agenda, meanwhile := meanwhile }

/-- The run is over (70_reset_and_hazards.md R263): no host step is left, and both ports are idle. A stuck engine is
not the end of a run. -/
def RunOver (s : State) : Prop := s.agenda = [] ∧ s.busy .P = false ∧ s.busy .C = false

/-- Port `p` is busy and its engine has no step: it is stuck (20_memory.md R68). -/
def Stuck (p : Port) (s : State) : Prop := s.busy p = true ∧ engineStep p s = none

/-- A state some run from power-up reaches. -/
def Reachable (s : State) : Prop :=
  ∃ (pl : Platform) (memInit : Memory) (agenda meanwhile : List Event) (n : Nat),
    Memory.wf memInit ∧ core.run n (powerUp pl memInit agenda meanwhile) = .next s

/-- A host address lies in the backing store, the bytes `BASE +_32 j` with `j < CAPB` (10_state.md R25). -/
def InStore (s : State) (a : Word) : Prop := ∃ j, j < s.buf.capBytes ∧ a = s.backingAddr j

/-- The next step is a host's write of word `w` to port `p`'s CMD register. -/
def NextIsCommand (p : Port) (w : Word) (s : State) : Prop :=
  ∃ rest, s.agenda = .csrWrite .word (Csr.offset (.cmd p)) w :: rest

/-- The byte that passes through engine P's read in the step from `s` to `t` (41_transfer.md R143), if that step is an
ENQ copy step: it is the step that moves `k` on. -/
def copiedIn (s t : State) : List Byte :=
  match s.portP.xfer, t.portP.xfer with
  | some x, some y => if y.k = x.k + 1 then [s.readByte (externalAddr x)] else []
  | _, _ => []

/-- The byte that engine C's write leaves in the destination in the step from `s` to `t` (41_transfer.md R151), if that
step is a DEQ copy step. -/
def copiedOut (s t : State) : List Byte :=
  match s.portC.xfer, t.portC.xfer with
  | some x, some y => if y.k = x.k + 1 then [t.readByte (externalAddr x)] else []
  | _, _ => []

/-- The premises of 41_transfer.md R160 on one step: it is no hardware reset, no CONFIG and no CLEAR, and no host writes
the backing store. One premise more, which R160 does not write out and which it needs (log 17): no DEQ in flight has the
byte it still has to write in the backing store. -/
structure CleanStep (s : State) : Prop where
  no_reset  : ∀ rest, s.agenda ≠ .reset :: rest
  no_config : ∀ p, ¬ NextIsCommand p 0x00000001 s
  no_clear  : ∀ p, ¬ NextIsCommand p 0x00000004 s
  no_poke   : ∀ a v rest, s.agenda = .memWrite a v :: rest → ¬ InStore s a
  dst_apart : ∀ x, s.portC.xfer = some x → x.k < x.B → ¬ InStore s (externalAddr x)

/-- A run of clean steps from `s` to `t`, with the bytes the ENQs read and the bytes the DEQs delivered, in order.
Each port runs one transfer at a time, so each list is in issue order. -/
inductive CleanRun (s : State) : List Byte → List Byte → State → Prop where
  | start : CleanRun s [] [] s
  | next {ins outs : List Byte} {t u : State} : CleanRun s ins outs t → CleanStep t → step t = .next u →
      CleanRun s (ins ++ copiedIn t u) (outs ++ copiedOut t u) u

end Sys2Proof.Machine
end

