-- ==== Sys2Proof/Certificates/Slice0/Obligations.lean ====
section
/-! DEFINITION. The statements about the model, each a Prop for the provers. -/

open Sys2Proof Sys2Proof.Machine

/-! ### Encoding and decoding -/

/-- 30_encoding.md, Opcode map: the ten words of the table, on either port (the port does not change how a word
decodes). -/
def Obligations.TableWordsDecode : Prop :=
  ∀ p : Port,
    decode p 0x00000001 = .ok (.config p) ∧ decode p 0x00000002 = .ok (.enq p) ∧
    decode p 0x00000003 = .ok (.deq p) ∧ decode p 0x00000004 = .ok (.clear p) ∧
    decode p 0x00000010 = .ok (.qocc p) ∧ decode p 0x00000011 = .ok (.qspace p) ∧
    decode p 0x00000012 = .ok (.qempty p) ∧ decode p 0x00000013 = .ok (.qfull p) ∧
    decode p 0x00000014 = .ok (.qcap p) ∧ decode p 0x00000015 = .ok (.qesize p)

/-- Decoding a command's word on its port gives the command back, and a word that decodes to a command on a port is that
command's word and that port. -/
def Obligations.DecodeAndEncodeAgree : Prop :=
  (∀ i : Instr, decode i.port (encode i) = .ok i) ∧
  (∀ (p : Port) (w : Word) (i : Instr), decode p w = .ok i → i.port = p ∧ encode i = w)

/-- R95: which words are illegal, and what an illegal word does on a port that is not busy: ERR[p] <- ILLEGAL,
RESULT[p] <- 0 and, as the word is accepted, OVR[p] <- 0. -/
def Obligations.IllegalWordsReportIllegal : Prop :=
  ∀ (p : Port) (w : Word),
    ((∃ i, decode p w = .ok i) ↔
      ¬ (w.toNat / 256 ≠ 0 ∨ w.toNat % 256 = 0x00 ∨ (0x05 ≤ w.toNat % 256 ∧ w.toNat % 256 ≤ 0x0F) ∨
        0x16 ≤ w.toNat % 256)) ∧
    ∀ (s : State) (rest : List Event), s.agenda = .csrWrite .word (Csr.offset (.cmd p)) w :: rest →
      s.busy p = false → (¬ ∃ i, decode p w = .ok i) →
      step s = .next (State.setPort { s with agenda := rest } p
        { s.port p with ovr := false, err := .illegal, result := 0 })

/-- R96: a 32-bit write to a CMD register whose word decodes to a command runs that command, on the state with the write
taken off the agenda. -/
def Obligations.StepRunsTheDecodedCommand : Prop :=
  ∀ (p : Port) (w : Word) (i : Instr) (s : State) (rest : List Event), decode p w = .ok i →
    s.agenda = .csrWrite .word (Csr.offset (.cmd p)) w :: rest → step s = exec i { s with agenda := rest }

/-! ### Issue, errors and priority -/

/-- R213: a word written to a busy port, legal or not, only sets OVR[p]. OVR[p] then stays 1 until a step in which a
word is accepted on `p` (which leaves it 0) or a hardware reset. -/
def Obligations.OverrunDropsAndSticks : Prop :=
  (∀ (p : Port) (w : Word) (s : State) (rest : List Event),
    s.agenda = .csrWrite .word (Csr.offset (.cmd p)) w :: rest → s.busy p = true →
    step s = .next (State.setPort { s with agenda := rest } p { s.port p with ovr := true })) ∧
  (∀ (p : Port) (w : Word) (s : State) (rest : List Event),
    s.agenda = .csrWrite .word (Csr.offset (.cmd p)) w :: rest → s.busy p = false →
    ∃ t, step s = .next t ∧ (t.port p).ovr = false) ∧
  (∀ (p : Port) (s t : State), step s = .next t → (s.port p).ovr = true → (t.port p).ovr = false →
    (∃ w, NextIsCommand p w s ∧ s.busy p = false) ∨ ∃ rest, s.agenda = .reset :: rest)

/-- R97: every word written to a CMD register has one of three outcomes: dropped on a busy port, failed with a named
code, or performed as the command it decodes to. The first excludes the others by BUSY[p], and ERR[p] tells those
apart. -/
def Obligations.EveryCommandWordHasOneOutcome : Prop :=
  ∀ (p : Port) (w : Word) (s : State) (rest : List Event),
    s.agenda = .csrWrite .word (Csr.offset (.cmd p)) w :: rest →
    ∃ t, step s = .next t ∧
      ((s.busy p = true ∧ t = State.setPort { s with agenda := rest } p { s.port p with ovr := true }) ∨
       (s.busy p = false ∧ ∃ code, code ≠ ErrCode.ok ∧
          t = State.setPort { s with agenda := rest } p { s.port p with ovr := false, err := code, result := 0 }) ∨
       (s.busy p = false ∧ (t.port p).err = .ok ∧
          ∃ i, decode p w = .ok i ∧ exec i { s with agenda := rest } = .next t))

/-- R14: a command that ends with an error code has written ERR[p], RESULT[p] <- 0 and, being accepted, OVR[p] <- 0, and
nothing else. BUSY[p] stays 0. -/
def Obligations.FailedCommandChangesOnlyItsReport : Prop :=
  ∀ (i : Instr) (s t : State), exec i s = .next t → s.busy i.port = false → (t.port i.port).err ≠ .ok →
    t = s.setPort i.port { s.port i.port with ovr := false, err := (t.port i.port).err, result := 0 } ∧
    t.busy i.port = false

/-- R212: of several causes the first in the order ILLEGAL, WRONG_PORT, NOT_CONFIGURED, OTHER_BUSY, ESIZE_ZERO,
CAP_NOT_POW2, CAP_TOO_LARGE is reported. Each clause assumes nothing about the later causes. A word on a busy port
reports none of them. -/
def Obligations.ErrorsComeInPriorityOrder : Prop :=
  ∀ (p : Port) (s : State),
    (s.busy p = true → ∀ (w : Word) (rest : List Event),
      s.agenda = .csrWrite .word (Csr.offset (.cmd p)) w :: rest →
      ∃ t, step s = .next t ∧ (t.port p).err = (s.port p).err) ∧
    (s.busy p = false →
      let failed := fun code => s.setPort p { s.port p with ovr := false, err := code, result := 0 }
      let L := (s.port p).arg1.toNat
      let E := (s.port p).arg2.toNat
      (∀ (w : Word) (rest : List Event), s.agenda = .csrWrite .word (Csr.offset (.cmd p)) w :: rest →
        (¬ ∃ i, decode p w = .ok i) → step s = .next { failed .illegal with agenda := rest }) ∧
      (p = .C → exec (.enq p) s = .next (failed .wrongPort)) ∧
      (p = .P → exec (.deq p) s = .next (failed .wrongPort)) ∧
      (∀ i : Instr, i.port = p → i.wellFormed = true → i ≠ .config p → s.buf.cfg = false →
        exec i s = .next (failed .notConfigured)) ∧
      (s.buf.cfg = true → s.busy p.other = true → exec (.clear p) s = .next (failed .otherBusy)) ∧
      (s.busy p.other = true → exec (.config p) s = .next (failed .otherBusy)) ∧
      (s.busy p.other = false → E = 0 → exec (.config p) s = .next (failed .esizeZero)) ∧
      (s.busy p.other = false → E ≠ 0 → (¬ ∃ k, L / E = 2 ^ k) → exec (.config p) s = .next (failed .capNotPow2)) ∧
      (s.busy p.other = false → E ≠ 0 → (∃ k, L / E = 2 ^ k) → 2 ^ (s.plat.W - 1) < L / E →
        exec (.config p) s = .next (failed .capTooLarge)))

/-- 60_exceptions.md section 7: no command ends in a fault or a refusal, on either port, in any state. -/
def Obligations.EveryCommandAnswersANextState : Prop :=
  ∀ (i : Instr) (s : State), ∃ t, exec i s = .next t

/-- What a command leaves unchanged, whatever its outcome: memory, the platform, the steps still to come, the other port,
all ARG registers and `readData`; the buffer but for CONFIG and CLEAR (CLEAR: only the cursors); XFER[p] (and so BUSY[p]) but
for ENQ and DEQ. -/
def Obligations.CommandFrame : Prop :=
  ∀ (i : Instr) (s t : State), exec i s = .next t →
    (∀ a, t.readByte a = s.readByte a) ∧ t.mem = s.mem ∧ t.plat = s.plat ∧ t.agenda = s.agenda ∧
    t.meanwhile = s.meanwhile ∧ t.readData = s.readData ∧ t.port i.port.other = s.port i.port.other ∧
    (t.port i.port).arg0 = (s.port i.port).arg0 ∧ (t.port i.port).arg1 = (s.port i.port).arg1 ∧
    (t.port i.port).arg2 = (s.port i.port).arg2 ∧
    (i ≠ .config i.port → i ≠ .clear i.port → t.buf = s.buf) ∧
    (i = .clear i.port → t.buf = { s.buf with wc := t.buf.wc, rc := t.buf.rc }) ∧
    (i ≠ .enq i.port → i ≠ .deq i.port → (t.port i.port).xfer = (s.port i.port).xfer) ∧
    (i = .enq i.port ∨ i = .deq i.port → (t.port i.port).err = .ok →
      (t.port i.port).result = (s.port i.port).result)

/-! ### CONFIG -/

/-- R121 and R124: CONFIG, word 0x00000001, on an idle port. Its five outcomes, each the whole next state: on failure
the buffer keeps its value; on success it is rebuilt with both cursors 0, whatever it was. -/
def Obligations.ConfigFollowsItsPseudocode : Prop :=
  ∀ (p : Port) (s : State), s.busy p = false →
    let base := (s.port p).arg0
    let L := (s.port p).arg1.toNat
    let E := (s.port p).arg2.toNat
    let failed := fun code => s.setPort p { s.port p with ovr := false, err := code, result := 0 }
    decode p 0x00000001 = .ok (.config p) ∧
    (s.busy p.other = true → exec (.config p) s = .next (failed .otherBusy)) ∧
    (s.busy p.other = false → E = 0 → exec (.config p) s = .next (failed .esizeZero)) ∧
    (s.busy p.other = false → E ≠ 0 → (¬ ∃ k, L / E = 2 ^ k) → exec (.config p) s = .next (failed .capNotPow2)) ∧
    (s.busy p.other = false → E ≠ 0 → (∃ k, L / E = 2 ^ k) → 2 ^ (s.plat.W - 1) < L / E →
      exec (.config p) s = .next (failed .capTooLarge)) ∧
    (s.busy p.other = false → E ≠ 0 → (∃ k, L / E = 2 ^ k) → L / E ≤ 2 ^ (s.plat.W - 1) →
      exec (.config p) s = .next (State.setPort
        { s with buf := { cfg := true, base := base, cap := BitVec.ofNat 32 (L / E), esize := (s.port p).arg2,
                          wc := 0, rc := 0 } } p
        { s.port p with ovr := false, err := .ok, result := BitVec.ofNat 32 (L / E) }))

/-- 40_construction.md, CONFIG: with W = 32 a CONFIG never fails with CAP_TOO_LARGE, since L is at most 2^32 - 1. -/
def Obligations.CapacityIsNeverTooLargeAtW32 : Prop :=
  ∀ (p : Port) (s t : State), s.plat.W = 32 → s.busy p = false → exec (.config p) s = .next t →
    (t.port p).err ≠ .capTooLarge

/-- 40_construction.md, CONFIG: after a CONFIG that succeeds, the store is the whole elements that fit into the L bytes:
fewer than E bytes of the region are left over. -/
def Obligations.BackingStoreIsWholeElements : Prop :=
  ∀ (p : Port) (s t : State), s.busy p = false → exec (.config p) s = .next t → (t.port p).err = .ok →
    t.buf.capBytes ≤ (s.port p).arg1.toNat ∧
    (s.port p).arg1.toNat - t.buf.capBytes < (s.port p).arg2.toNat ∧
    (t.port p).result.toNat = t.buf.cap.toNat

/-! ### ENQ and DEQ: issue -/

/-- R142: ENQ, word 0x00000002. On port P, idle, with a configured buffer: the record latched, BUSY[P] = 1, ERR[P] =
OK, and RESULT[P] and all else as before. On port C it fails with WRONG_PORT. The premise on the occupancy rules out
states that no run reaches (Obligations.OccupancyNeverExceedsCapacity). -/
def Obligations.EnqLatchesItsTransfer : Prop :=
  (∀ p : Port, decode p 0x00000002 = .ok (.enq p)) ∧
  (∀ s : State, s.busy .C = false →
    exec (.enq .C) s = .next { s with portC := { s.portC with ovr := false, err := .wrongPort, result := 0 } }) ∧
  ∀ s : State, s.busy .P = false → s.buf.cfg = true → s.occ ≤ s.buf.cap.toNat →
    let E := s.buf.esize.toNat
    let free := s.buf.cap.toNat - s.occ
    let n := min s.portP.arg1.toNat free
    let off := (s.buf.wc.toNat &&& (s.buf.cap.toNat - 1)) * E
    let x : Xfer := { dir := .IN, ext := s.portP.arg0, n := n, B := n * E, off := off,
                      F := min (n * E) (s.buf.cap.toNat * E - off), k := 0 }
    exec (.enq .P) s = .next { s with portP := { s.portP with ovr := false, err := .ok, xfer := some x } }

/-- R150: DEQ, word 0x00000003. On port C, idle, with a configured buffer: the record latched, BUSY[C] = 1, ERR[C] = OK,
and RESULT[C] and all else as before. On port P it fails with WRONG_PORT. -/
def Obligations.DeqLatchesItsTransfer : Prop :=
  (∀ p : Port, decode p 0x00000003 = .ok (.deq p)) ∧
  (∀ s : State, s.busy .P = false →
    exec (.deq .P) s = .next { s with portP := { s.portP with ovr := false, err := .wrongPort, result := 0 } }) ∧
  ∀ s : State, s.busy .C = false → s.buf.cfg = true →
    let E := s.buf.esize.toNat
    let n := min s.portC.arg1.toNat s.occ
    let off := (s.buf.rc.toNat &&& (s.buf.cap.toNat - 1)) * E
    let x : Xfer := { dir := .OUT, ext := s.portC.arg0, n := n, B := n * E, off := off,
                      F := min (n * E) (s.buf.cap.toNat * E - off), k := 0 }
    exec (.deq .C) s = .next { s with portC := { s.portC with ovr := false, err := .ok, xfer := some x } }

/-! ### Queries and CLEAR -/

/-- R181: QOCC, word 0x00000010, on an idle port returns the occupancy, which is at most CAP in every state of the
invariant. -/
def Obligations.QoccReturnsTheOccupancy : Prop :=
  (∀ p : Port, decode p 0x00000010 = .ok (.qocc p)) ∧
  ∀ (p : Port) (s : State), s.busy p = false → s.buf.cfg = true →
    exec (.qocc p) s = .next (s.setPort p { s.port p with
      ovr := false, err := .ok, result := BitVec.ofNat 32 (subW s.plat.W s.buf.wc s.buf.rc) }) ∧
    (Inv s → subW s.plat.W s.buf.wc s.buf.rc ≤ s.buf.cap.toNat)

/-- R182: QSPACE, word 0x00000011, on an idle port returns CAP minus the occupancy. The premise on the occupancy rules
out states that no run reaches. -/
def Obligations.QspaceReturnsTheFreeSpace : Prop :=
  (∀ p : Port, decode p 0x00000011 = .ok (.qspace p)) ∧
  ∀ (p : Port) (s : State), s.busy p = false → s.buf.cfg = true → s.occ ≤ s.buf.cap.toNat →
    ∃ r : Word, r.toNat + s.occ = s.buf.cap.toNat ∧
      exec (.qspace p) s = .next (s.setPort p { s.port p with ovr := false, err := .ok, result := r })

/-- R183: QEMPTY, word 0x00000012, on an idle port returns 1 iff WC = RC, else 0. -/
def Obligations.QemptyComparesTheCursors : Prop :=
  (∀ p : Port, decode p 0x00000012 = .ok (.qempty p)) ∧
  ∀ (p : Port) (s : State), s.busy p = false → s.buf.cfg = true →
    (s.buf.wc = s.buf.rc →
      exec (.qempty p) s = .next (s.setPort p { s.port p with ovr := false, err := .ok, result := 1 })) ∧
    (s.buf.wc ≠ s.buf.rc →
      exec (.qempty p) s = .next (s.setPort p { s.port p with ovr := false, err := .ok, result := 0 })) ∧
    (Inv s → (s.buf.wc = s.buf.rc ↔ s.occ = 0))

/-- R184: QFULL, word 0x00000013, on an idle port returns 1 iff the occupancy equals CAP, else 0. In every state of the
invariant the source's other form, occupancy above CAP - 1, says the same. -/
def Obligations.QfullComparesWithCapacity : Prop :=
  (∀ p : Port, decode p 0x00000013 = .ok (.qfull p)) ∧
  ∀ (p : Port) (s : State), s.busy p = false → s.buf.cfg = true →
    (s.occ = s.buf.cap.toNat →
      exec (.qfull p) s = .next (s.setPort p { s.port p with ovr := false, err := .ok, result := 1 })) ∧
    (s.occ ≠ s.buf.cap.toNat →
      exec (.qfull p) s = .next (s.setPort p { s.port p with ovr := false, err := .ok, result := 0 })) ∧
    (Inv s → (s.buf.cap.toNat - 1 < s.occ ↔ s.occ = s.buf.cap.toNat))

/-- R185: QCAP, word 0x00000014, on an idle port returns CAP. -/
def Obligations.QcapReturnsTheCapacity : Prop :=
  (∀ p : Port, decode p 0x00000014 = .ok (.qcap p)) ∧
  ∀ (p : Port) (s : State), s.busy p = false → s.buf.cfg = true →
    exec (.qcap p) s = .next (s.setPort p { s.port p with ovr := false, err := .ok, result := s.buf.cap })

/-- R186: QESIZE, word 0x00000015, on an idle port returns ESIZE. -/
def Obligations.QesizeReturnsTheElementSize : Prop :=
  (∀ p : Port, decode p 0x00000015 = .ok (.qesize p)) ∧
  ∀ (p : Port) (s : State), s.busy p = false → s.buf.cfg = true →
    exec (.qesize p) s = .next (s.setPort p { s.port p with ovr := false, err := .ok, result := s.buf.esize })

/-- R187: CLEAR, word 0x00000004, on an idle port while the other port is idle sets both cursors to 0 and RESULT[p] to
0, and leaves CFG, BASE, CAP, ESIZE and memory. With CFG = 0 it fails with NOT_CONFIGURED and, after that check, while
the other port is busy with OTHER_BUSY; the cursors then stay. -/
def Obligations.ClearZeroesTheCursors : Prop :=
  (∀ p : Port, decode p 0x00000004 = .ok (.clear p)) ∧
  ∀ (p : Port) (s : State), s.busy p = false →
    (s.buf.cfg = false →
      exec (.clear p) s = .next (s.setPort p { s.port p with ovr := false, err := .notConfigured, result := 0 })) ∧
    (s.buf.cfg = true → s.busy p.other = false →
      exec (.clear p) s = .next (State.setPort { s with buf := { s.buf with wc := 0, rc := 0 } } p
        { s.port p with ovr := false, err := .ok, result := 0 })) ∧
    (s.buf.cfg = true → s.busy p.other = true →
      exec (.clear p) s = .next (s.setPort p { s.port p with ovr := false, err := .otherBusy, result := 0 }))

/-- 42_queries.md section 1: a query changes no buffer state, and the same query twice with no step between returns the
same value, in every state and whatever its outcome. -/
def Obligations.QueriesAreIdempotent : Prop :=
  ∀ (p : Port) (i : Instr), i ∈ [Instr.qocc p, .qspace p, .qempty p, .qfull p, .qcap p, .qesize p] →
    ∀ s t u : State, exec i s = .next t → exec i t = .next u →
      t.buf = s.buf ∧ u.buf = s.buf ∧ (u.port p).result = (t.port p).result ∧ (u.port p).err = (t.port p).err

/-- R188: in every reachable state with CFG = 1, QEMPTY and QFULL, on any idle ports, do not both return 1. -/
def Obligations.EmptyAndFullExcludeEachOther : Prop :=
  ∀ (p q : Port) (s t u : State), Reachable s → s.buf.cfg = true → s.busy p = false → s.busy q = false →
    exec (.qempty p) s = .next t → exec (.qfull q) s = .next u →
    ¬ ((t.port p).result = 1 ∧ (u.port q).result = 1)

/-! ### The engines' steps -/

/-- R143: ENQ's copy step. The byte at `ext +_32 k` goes to `BASE +_32 bo(k)`, `k` moves on by one, and nothing else
changes: every other byte of memory, RESULT[P] and the cursors stay. -/
def Obligations.EnqCopyStepMovesOneByte : Prop :=
  ∀ (s : State) (x : Xfer) (rest : List Event), s.agenda = .engine .P :: rest → s.portP.xfer = some x →
    x.dir = .IN → x.k < x.B →
    let src := x.ext + BitVec.ofNat 32 x.k
    let dst := s.buf.base + BitVec.ofNat 32 (if x.k < x.F then x.off + x.k else x.k - x.F)
    s.plat.memAdmit src .read = true → s.plat.memAdmit dst .write = true →
    ∃ t, step s = .next t ∧ t.readByte dst = s.readByte src ∧ (∀ a, a ≠ dst → t.readByte a = s.readByte a) ∧
      t.portP = { s.portP with xfer := some { x with k := x.k + 1 } } ∧ t.portC = s.portC ∧ t.buf = s.buf ∧
      t.plat = s.plat ∧ t.agenda = rest ∧ t.meanwhile = s.meanwhile ∧ t.readData = s.readData

/-- R144: ENQ's completion step. WC advances by n mod 2^W, RESULT[P] <- n, BUSY[P] <- 0, nothing else changes. -/
def Obligations.EnqCompletionPublishesTheCursor : Prop :=
  ∀ (s : State) (x : Xfer) (rest : List Event), s.agenda = .engine .P :: rest → s.portP.xfer = some x →
    x.dir = .IN → x.k = x.B →
    step s = .next { s with
      agenda := rest, buf := { s.buf with wc := BitVec.ofNat 32 ((s.buf.wc.toNat + x.n) % 2 ^ s.plat.W) },
      portP := { s.portP with result := BitVec.ofNat 32 x.n, xfer := none } }

/-- R151: DEQ's copy step. The byte at `BASE +_32 bo(k)` goes to `ext +_32 k`, `k` moves on by one, and nothing else
changes. -/
def Obligations.DeqCopyStepMovesOneByte : Prop :=
  ∀ (s : State) (x : Xfer) (rest : List Event), s.agenda = .engine .C :: rest → s.portC.xfer = some x →
    x.dir = .OUT → x.k < x.B →
    let src := s.buf.base + BitVec.ofNat 32 (if x.k < x.F then x.off + x.k else x.k - x.F)
    let dst := x.ext + BitVec.ofNat 32 x.k
    s.plat.memAdmit src .read = true → s.plat.memAdmit dst .write = true →
    ∃ t, step s = .next t ∧ t.readByte dst = s.readByte src ∧ (∀ a, a ≠ dst → t.readByte a = s.readByte a) ∧
      t.portC = { s.portC with xfer := some { x with k := x.k + 1 } } ∧ t.portP = s.portP ∧ t.buf = s.buf ∧
      t.plat = s.plat ∧ t.agenda = rest ∧ t.meanwhile = s.meanwhile ∧ t.readData = s.readData

/-- R152: DEQ's completion step. RC advances by n mod 2^W, RESULT[C] <- n, BUSY[C] <- 0, nothing else changes. -/
def Obligations.DeqCompletionFreesTheSpace : Prop :=
  ∀ (s : State) (x : Xfer) (rest : List Event), s.agenda = .engine .C :: rest → s.portC.xfer = some x →
    x.dir = .OUT → x.k = x.B →
    step s = .next { s with
      agenda := rest, buf := { s.buf with rc := BitVec.ofNat 32 ((s.buf.rc.toNat + x.n) % 2 ^ s.plat.W) },
      portC := { s.portC with result := BitVec.ofNat 32 x.n, xfer := none } }

/-- R68: an engine whose next copy step needs an access that MEM_ADMIT refuses has no step. Its turn then passes and
leaves the state as it is (log 9), and every step any agent takes leaves it without a step and with BUSY[p] = 1, but for
a hardware reset, which leaves BUSY[p] = 0. -/
def Obligations.WithheldAccessSticksUntilReset : Prop :=
  (∀ (s : State) (x : Xfer), s.portP.xfer = some x → x.dir = .IN → x.k < x.B →
    (s.plat.memAdmit (externalAddr x) .read = false ∨ s.plat.memAdmit (storeAddr s x) .write = false) →
    Stuck .P s) ∧
  (∀ (s : State) (x : Xfer), s.portC.xfer = some x → x.dir = .OUT → x.k < x.B →
    (s.plat.memAdmit (storeAddr s x) .read = false ∨ s.plat.memAdmit (externalAddr x) .write = false) →
    Stuck .C s) ∧
  (∀ (p : Port) (s : State) (rest : List Event), Stuck p s → s.agenda = .engine p :: rest →
    step s = .next { s with agenda := rest }) ∧
  (∀ (p : Port) (s t : State), Stuck p s → step s = .next t →
    Stuck p t ∨ ((∃ rest, s.agenda = .reset :: rest) ∧ t.busy p = false))

/-- 41_transfer.md section 1, engine step dispatch: in a state of the invariant whose platform withholds nothing, engine
`p` has a step exactly while BUSY[p] = 1. -/
def Obligations.EngineHasAStepExactlyWhileBusy : Prop :=
  ∀ (p : Port) (s : State), Inv s → (∀ a kind, s.plat.memAdmit a kind = true) →
    ((∃ t, engineStep p s = some t) ↔ s.busy p = true)

/-- 41_transfer.md section 1, bounded work: a transfer with `k` bytes copied takes exactly B - k copy steps, during
which BUSY[p] stays 1, and one completion step, after which BUSY[p] = 0 and RESULT[p] = n. It never waits on the other
port or on the buffer. -/
def Obligations.TransferTakesItsCopyStepsAndOneMore : Prop :=
  ∀ (p : Port) (s : State) (x : Xfer) (rest : List Event), Inv s → (s.port p).xfer = some x →
    (∀ a kind, s.plat.memAdmit a kind = true) →
    s.agenda = List.replicate (x.B - x.k + 1) (.engine p) ++ rest →
    (∀ m, m ≤ x.B - x.k → ∃ u, core.run m s = .next u ∧ u.busy p = true) ∧
    ∃ t, core.run (x.B - x.k + 1) s = .next t ∧ t.agenda = rest ∧ t.busy p = false ∧
      (t.port p).result.toNat = x.n ∧ (t.port p).err = .ok

/-- 41_transfer.md sections 1 and 3: an ENQ that runs to its end on a source apart from the bytes it writes leaves
source byte `j` at slot order position `j` of the ring, wrapped at the physical end, and every other byte of memory as
it was. -/
def Obligations.EnqStoresTheSourceInRingOrder : Prop :=
  ∀ (s : State) (x : Xfer) (rest : List Event), Inv s → s.portP.xfer = some x → x.k = 0 →
    (∀ a kind, s.plat.memAdmit a kind = true) →
    s.agenda = List.replicate (x.B + 1) (.engine .P) ++ rest →
    let slot := fun j => s.backingAddr ((s.buf.wc.toNat % s.buf.cap.toNat * s.buf.esize.toNat + j) % s.buf.capBytes)
    (∀ i j, i < x.B → j < x.B → addrAdd x.ext i ≠ slot j) →
    ∃ t, core.run (x.B + 1) s = .next t ∧ t.agenda = rest ∧
      t.buf.wc.toNat = (s.buf.wc.toNat + x.n) % 2 ^ s.plat.W ∧
      (∀ j, j < x.B → t.readByte (slot j) = s.readByte (addrAdd x.ext j)) ∧
      (∀ a, (∀ j, j < x.B → a ≠ slot j) → t.readByte a = s.readByte a)

/-- 41_transfer.md sections 2 and 3: a DEQ that runs to its end into a destination apart from the bytes it reads leaves
ring byte `j` at destination byte `j`, and every other byte of memory as it was. -/
def Obligations.DeqDeliversInRingOrder : Prop :=
  ∀ (s : State) (x : Xfer) (rest : List Event), Inv s → s.portC.xfer = some x → x.k = 0 →
    (∀ a kind, s.plat.memAdmit a kind = true) →
    s.agenda = List.replicate (x.B + 1) (.engine .C) ++ rest →
    let slot := fun j => s.backingAddr ((s.buf.rc.toNat % s.buf.cap.toNat * s.buf.esize.toNat + j) % s.buf.capBytes)
    (∀ i j, i < x.B → j < x.B → addrAdd x.ext i ≠ slot j) →
    ∃ t, core.run (x.B + 1) s = .next t ∧ t.agenda = rest ∧
      t.buf.rc.toNat = (s.buf.rc.toNat + x.n) % 2 ^ s.plat.W ∧
      (∀ j, j < x.B → t.readByte (addrAdd x.ext j) = s.readByte (slot j)) ∧
      (∀ a, (∀ j, j < x.B → a ≠ addrAdd x.ext j) → t.readByte a = s.readByte a)

/-- 41_transfer.md section 3, truncation: an ENQ for more elements than are free, issued and run to its end with no
other step between, completes with RESULT[P] = the free space at issue, and the occupancy is then CAP. -/
def Obligations.TruncatedEnqFillsTheBuffer : Prop :=
  ∀ (s : State) (rest : List Event), Inv s → s.buf.cfg = true → s.busy .P = false →
    (∀ a kind, s.plat.memAdmit a kind = true) → s.free < s.portP.arg1.toNat →
    s.agenda = .csrWrite .word (Csr.offset (.cmd .P)) 0x00000002 ::
      List.replicate (s.free * s.buf.esize.toNat + 1) (.engine .P) ++ rest →
    ∃ t, core.run (s.free * s.buf.esize.toNat + 2) s = .next t ∧ t.agenda = rest ∧ t.busy .P = false ∧
      t.portP.err = .ok ∧ t.portP.result.toNat = s.free ∧ t.occ = s.buf.cap.toNat

/-- 70_reset_and_hazards.md sections 4 and 5, under the model's order for an empty agenda (log 2): with no further host
step and nothing withheld, both engines finish and the run is over. -/
def Obligations.EnginesFinishOnTheirOwn : Prop :=
  ∀ s : State, Inv s → s.agenda = [] → (∀ a kind, s.plat.memAdmit a kind = true) →
    ∃ (n : Nat) (t : State), core.run n s = .next t ∧ RunOver t ∧ step t = .next t

/-- 30_encoding.md section 6: `wait.x` ends with BUSY of its port 0, under the model's order for its loop (log 2), when
nothing is withheld. -/
def Obligations.WaitEndsWithThePortIdle : Prop :=
  ∀ (p : Port) (s : State) (rest : List Event), Inv s → (∀ a kind, s.plat.memAdmit a kind = true) →
    s.agenda = .wait p :: rest → s.meanwhile = [] →
    ∃ (n : Nat) (t : State), core.run n s = .next t ∧ t.agenda = rest ∧ t.busy p = false ∧
      t.readData.toNat % 2 = 0

/-- 60_exceptions.md section 7, hang, and 70_reset_and_hazards.md section 4: a `wait` on a stuck port polls for ever, with
no fault and no end. The other engine, where its accesses are admitted, still finishes its transfer, under the model's
order for the loop (log 2). A reset by another agent between two polls ends the loop (log 19). -/
def Obligations.WaitOnAStuckPortHangsUntilReset : Prop :=
  ∀ (p : Port) (s : State) (rest : List Event), s.agenda = .wait p :: rest → Stuck p s →
    (s.meanwhile = [] → ∀ n, ∃ t, core.run n s = .next t ∧ Stuck p t ∧ .wait p ∈ t.agenda) ∧
    (s.meanwhile = [] → Inv s → ∀ y, (s.port p.other).xfer = some y →
      (∀ k kind, y.k ≤ k → k < y.B → s.plat.memAdmit (addrAdd y.ext k) kind = true ∧
        s.plat.memAdmit (s.backingAddr (backingOffset y k)) kind = true) →
      ∃ n t, core.run n s = .next t ∧ Stuck p t ∧ t.agenda = .wait p :: rest ∧ t.busy p.other = false ∧
        (t.port p.other).result.toNat = y.n) ∧
    (∀ later, s.meanwhile = .reset :: later →
      ∃ t, core.run 3 s = .next t ∧ t.agenda = rest ∧ t.meanwhile = later ∧ t.busy p = false)

/-! ### Host accesses, reset -/

/-- 10_state.md section 7: what a 32-bit read at each offset returns, and that it changes nothing of the block or of
memory. -/
def Obligations.CsrReadsFollowTheMap : Prop :=
  ∀ (s : State) (off : CsrOffset) (rest : List Event), s.agenda = .csrRead .word off :: rest → off.toNat % 4 = 0 →
    step s = .next { s with agenda := rest, readData :=
      if off = 0x04 then s.portP.arg0 else if off = 0x08 then s.portP.arg1 else if off = 0x0C then s.portP.arg2
      else if off = 0x10 then s.portP.result else if off = 0x14 then s.status .P
      else if off = 0x24 then s.portC.arg0 else if off = 0x28 then s.portC.arg1 else if off = 0x2C then s.portC.arg2
      else if off = 0x30 then s.portC.result else if off = 0x34 then s.status .C
      else if off = 0x40 then s.buf.wc else if off = 0x44 then s.buf.rc else 0 }

/-- 10_state.md section 7 and R22: a 32-bit write to an ARG register stores its value, also while the port is busy, and
leaves XFER; a write to any other offset but the two CMD registers is ignored. -/
def Obligations.CsrWritesFollowTheMap : Prop :=
  ∀ (s : State) (off : CsrOffset) (v : Word) (rest : List Event), s.agenda = .csrWrite .word off v :: rest →
    off.toNat % 4 = 0 → off ≠ 0x00 → off ≠ 0x20 →
    step s = .next { s with
      agenda := rest,
      portP :=
        if off = 0x04 then { s.portP with arg0 := v } else if off = 0x08 then { s.portP with arg1 := v }
        else if off = 0x0C then { s.portP with arg2 := v } else s.portP,
      portC :=
        if off = 0x24 then { s.portC with arg0 := v } else if off = 0x28 then { s.portC with arg1 := v }
        else if off = 0x2C then { s.portC with arg2 := v } else s.portC }

/-- 10_state.md section 7: a host access to the window that is not 32 bits wide at a 4-byte-aligned offset is refused, a
byte access of host memory at an address inside the window included (log 12). -/
def Obligations.OtherCsrAccessesAreRefused : Prop :=
  (∀ (s : State) (width : Width) (off : CsrOffset) (rest : List Event), ¬ (width = .word ∧ off.toNat % 4 = 0) →
    (s.agenda = .csrRead width off :: rest → step s = .refused .csrAccessForm) ∧
    ∀ v, s.agenda = .csrWrite width off v :: rest → step s = .refused .csrAccessForm) ∧
  (∀ (s : State) (off : CsrOffset) (rest : List Event),
    (s.agenda = .memRead (s.plat.csrBase + off.setWidth 32) :: rest → step s = .refused .csrAccessForm) ∧
    ∀ v, s.agenda = .memWrite (s.plat.csrBase + off.setWidth 32) v :: rest → step s = .refused .csrAccessForm)

/-- 00_scope.md section 6, memory primitives, for a host: a byte write outside the CSR window changes that byte of
memory and no other and nothing of the block; a byte read returns the byte. -/
def Obligations.HostByteAccesses : Prop :=
  ∀ (s : State) (a : Word) (rest : List Event), 0x80 ≤ (a - s.plat.csrBase).toNat →
    (s.agenda = .memRead a :: rest →
      step s = .next { s with agenda := rest, readData := (s.readByte a).setWidth 32 }) ∧
    (∀ v, s.agenda = .memWrite a v :: rest →
      ∃ t, step s = .next t ∧ t.readByte a = v ∧ (∀ b, b ≠ a → t.readByte b = s.readByte b) ∧ t.buf = s.buf ∧
        t.portP = s.portP ∧ t.portC = s.portC ∧ t.plat = s.plat ∧ t.agenda = rest ∧ t.meanwhile = s.meanwhile ∧
        t.readData = s.readData)

/-- 10_state.md section 5: STATUS[p] as a number: BUSY + 2 OVR + 4 CFG + 16 ERR, so that bit 3 and bits 31:8 are 0, with
the codes of 60_exceptions.md section 1. -/
def Obligations.StatusFieldsAreWherePlaced : Prop :=
  ∀ (s : State) (p : Port),
    (s.status p).toNat = (s.busy p).toNat + 2 * (s.port p).ovr.toNat + 4 * s.buf.cfg.toNat +
      16 * (match (s.port p).err with
        | .ok => 0 | .illegal => 1 | .wrongPort => 2 | .notConfigured => 3 | .otherBusy => 4 | .esizeZero => 5
        | .capNotPow2 => 6 | .capTooLarge => 7)

/-- R250: hardware reset sets every piece of the block's state to its reset value, discards both transfers and touches
no byte of host memory. -/
def Obligations.HardwareResetZeroesTheBlock : Prop :=
  ∀ (s : State) (rest : List Event), s.agenda = .reset :: rest →
    ∃ t, step s = .next t ∧
      t.buf = { cfg := false, base := 0, cap := 0, esize := 0, wc := 0, rc := 0 } ∧
      (∀ p, t.port p = { arg0 := 0, arg1 := 0, arg2 := 0, result := 0, ovr := false, err := .ok, xfer := none }) ∧
      (∀ p, t.busy p = false) ∧ t.mem = s.mem ∧ t.plat = s.plat ∧ t.agenda = rest ∧
      t.meanwhile = s.meanwhile ∧ t.readData = s.readData

/-- 60_exceptions.md section 6, power states: with no step asked for and both engines idle, the block holds its state.
-/
def Obligations.IdleBlockHoldsItsState : Prop :=
  ∀ s : State, s.agenda = [] → s.busy .P = false → s.busy .C = false → step s = .next s

/-! ### Whole-machine rules -/

/-- R24: CFG changes only from 0 to 1 by a CONFIG that ends with ERR = OK, and to 0 by hardware reset. -/
def Obligations.CfgChangesOnlyByConfigOrReset : Prop :=
  ∀ s t : State, step s = .next t → t.buf.cfg ≠ s.buf.cfg →
    (t.buf.cfg = true ∧ ∃ p, NextIsCommand p 0x00000001 s ∧ s.busy p = false ∧ (t.port p).err = .ok) ∨
    (t.buf.cfg = false ∧ ∃ rest, s.agenda = .reset :: rest)

/-- 10_state.md section 4: BASE, CAP and ESIZE change only by a successful CONFIG, which takes them from its ARG
registers while both ports are idle, and by hardware reset. -/
def Obligations.ConfigurationChangesOnlyByConfigOrReset : Prop :=
  ∀ s t : State, step s = .next t →
    (t.buf.base = s.buf.base ∧ t.buf.cap = s.buf.cap ∧ t.buf.esize = s.buf.esize) ∨
    (∃ p, NextIsCommand p 0x00000001 s ∧ s.busy .P = false ∧ s.busy .C = false ∧ (t.port p).err = .ok ∧
      t.buf.base = (s.port p).arg0 ∧ t.buf.cap.toNat = (s.port p).arg1.toNat / (s.port p).arg2.toNat ∧
      t.buf.esize = (s.port p).arg2) ∨
    (∃ rest, s.agenda = .reset :: rest)

/-- R27: the cursors change only by the completion of a transfer whose bytes are all copied, which adds its n mod 2^W
(WC for ENQ, RC for DEQ), and to 0 by CONFIG, CLEAR and hardware reset. -/
def Obligations.CursorsChangeOnlyByTheirWrites : Prop :=
  ∀ s t : State, step s = .next t →
    (t.buf.wc = s.buf.wc ∧ t.buf.rc = s.buf.rc) ∨
    (∃ x, s.portP.xfer = some x ∧ x.k = x.B ∧ t.portP.xfer = none ∧ t.buf.rc = s.buf.rc ∧
      t.buf.wc.toNat = (s.buf.wc.toNat + x.n) % 2 ^ s.plat.W) ∨
    (∃ x, s.portC.xfer = some x ∧ x.k = x.B ∧ t.portC.xfer = none ∧ t.buf.wc = s.buf.wc ∧
      t.buf.rc.toNat = (s.buf.rc.toNat + x.n) % 2 ^ s.plat.W) ∨
    (t.buf.wc = 0 ∧ t.buf.rc = 0 ∧
      ((∃ p, (NextIsCommand p 0x00000001 s ∨ NextIsCommand p 0x00000004 s) ∧ (t.port p).err = .ok) ∨
        ∃ rest, s.agenda = .reset :: rest))

/-- 00_scope.md section 5: the platform's parameters are fixed for the machine. -/
def Obligations.PlatformNeverChanges : Prop :=
  ∀ s t : State, step s = .next t → t.plat = s.plat

/-- 60_exceptions.md section 7: a step faults only where no step of any agent is left: none is asked for, neither engine
has one, and a port is busy (log 9). In a state of the invariant the platform then withholds some access. No command,
host access, engine's turn or reset faults. -/
def Obligations.OnlyStuckEnginesFault : Prop :=
  ∀ (s : State) (r : Fault), step s = .fault r →
    s.agenda = [] ∧ engineStep .P s = none ∧ engineStep .C s = none ∧ (∃ p, r = .engineStuck p ∧ Stuck p s) ∧
    (Inv s → ∃ a kind, s.plat.memAdmit a kind = false)

/-- 60_exceptions.md section 1: no error is raised while a transfer runs. In every reachable state a busy port has
ERR[p] = OK, and an engine's step never changes ERR. -/
def Obligations.NoErrorWhileATransferRuns : Prop :=
  (∀ (p : Port) (s : State), Reachable s → s.busy p = true → (s.port p).err = .ok) ∧
  (∀ (p q : Port) (s t : State), engineStep p s = some t → (t.port q).err = (s.port q).err)

/-! ### Arithmetic of the ring -/

/-- 00_scope.md section 6: `a -_W b` is the difference of the integers mod 2^W, and `a +_W n` the sum. -/
def Obligations.CursorArithmeticIsModular : Prop :=
  ∀ (pl : Platform) (a b : Word) (n : Nat),
    (subW pl.W a b : Int) = ((a.toNat : Int) - (b.toNat : Int)) % ((2 ^ pl.W : Nat) : Int) ∧
    (addW pl.W a n).toNat = (a.toNat + n) % 2 ^ pl.W

/-- R29: with CAP a power of two at most 2^(W-1), a cursor that wraps at 2^W keeps naming the right slot. -/
def Obligations.WrappedCursorNamesTheRightSlot : Prop :=
  ∀ (pl : Platform) (cap : Nat) (x : Word) (n : Nat), (∃ k, cap = 2 ^ k) → cap ≤ 2 ^ (pl.W - 1) →
    x.toNat < 2 ^ pl.W →
    cap ∣ 2 ^ pl.W ∧ ((addW pl.W x n).toNat &&& (cap - 1)) = (x.toNat + n) % cap

/-- R149: the properties (a) to (d) of the plan of a transfer of n elements from cursor value pos, with CAP a power of
two and ESIZE at least 1. -/
def Obligations.PlanSplitsAtThePhysicalEnd : Prop :=
  ∀ (b : Buffer) (dir : Dir) (ext pos : Word) (n : Nat), (∃ k, b.cap.toNat = 2 ^ k) → 1 ≤ b.esize.toNat →
    n ≤ b.cap.toNat →
    let x := planXfer b dir ext pos n
    let bo := backingOffset x
    let CAPB := b.cap.toNat * b.esize.toNat
    (∀ k, k < x.B → bo k = (x.off + k) % CAPB) ∧
    (x.B - x.F ≤ x.off ∧ ∀ j k, j < x.B → k < x.B → bo j = bo k → j = k) ∧
    (b.esize.toNat ∣ x.F ∧ ∀ i c, i < n → c < b.esize.toNat →
      bo (i * b.esize.toNat + c) =
        ((pos.toNat &&& (b.cap.toNat - 1)) + i) % b.cap.toNat * b.esize.toNat + c) ∧
    (x.B - x.F = 0 ↔ x.B ≤ CAPB - x.off)

/-! ### Headline results -/

/-- Every step keeps the invariant: memory in canonical form, cursors below 2^W, a configuration that CONFIG accepts,
occupancy at most CAP, and each transfer in flight planned for the committed cursor, within the free space or the
elements available, with ERR = OK. -/
def Obligations.ControllerInvariantIsKept : Prop :=
  ∀ s t : State, Inv s → step s = .next t → Inv t

/-- The invariant holds at reset, and at power-up with any memory contents, platform and order of steps. -/
def Obligations.PowerUpMeetsTheInvariant : Prop :=
  Inv State.reset ∧ ∀ (pl : Platform) (m : Memory) (agenda meanwhile : List Event),
    Memory.wf m → Inv (powerUp pl m agenda meanwhile)

/-- R28: in every reachable state with CFG = 1 the occupancy is at most CAP. -/
def Obligations.OccupancyNeverExceedsCapacity : Prop :=
  ∀ s : State, Reachable s → s.buf.cfg = true → s.occ ≤ s.buf.cap.toNat

/-- 10_state.md section 4: what holds of the configuration in every reachable state with CFG = 1. -/
def Obligations.ConfiguredBufferIsLegal : Prop :=
  ∀ s : State, Reachable s → s.buf.cfg = true →
    (∃ k, s.buf.cap.toNat = 2 ^ k) ∧ 1 ≤ s.buf.cap.toNat ∧ s.buf.cap.toNat ≤ 2 ^ (s.plat.W - 1) ∧
    1 ≤ s.buf.esize.toNat ∧ s.buf.cap.toNat * s.buf.esize.toNat ≤ 2 ^ 32 - 1

/-- R76: in every reachable state with an ENQ and a DEQ in flight together, no host address is both a backing byte the
ENQ writes and a backing byte the DEQ reads. -/
def Obligations.ConcurrentTransfersAreDisjoint : Prop :=
  ∀ (s : State) (x y : Xfer), Reachable s → s.portP.xfer = some x → s.portC.xfer = some y →
    ∀ j k, j < x.B → k < y.B → s.backingAddr (backingOffset x j) ≠ s.backingAddr (backingOffset y k)

/-- 41_transfer.md section 3, conservation: from a configured, empty buffer with cursors 0 and both ports idle (what
CONFIG or CLEAR leaves), in every run of clean steps, in any order of the agents, the bytes delivered are a prefix of
the bytes accepted, in order, and equal to them once as many are delivered. The premise on DEQ destinations is the
model's addition to the spec's premises (log 17). -/
def Obligations.FifoOrderIsConserved : Prop :=
  ∀ (s t : State) (ins outs : List Byte), Inv s → s.buf.cfg = true → s.buf.wc = 0 → s.buf.rc = 0 →
    s.busy .P = false → s.busy .C = false → CleanRun s ins outs t →
    outs <+: ins ∧ (outs.length = ins.length → outs = ins)
end

