-- ==== Sys2Proof/Laws/State.lean ====
section
/-! SUPPORT. One lemma per field per update of State, each true by unfolding the update once. -/

namespace Sys2Proof.Machine

variable (s : State) (p q : Port)

theorem port_P : s.port .P = s.portP := rfl

theorem port_C : s.port .C = s.portC := rfl

@[simp] theorem other_other : p.other.other = p := by cases p <;> rfl

@[simp] theorem other_ne : p.other ≠ p := by cases p <;> decide

@[simp] theorem ne_other : p ≠ p.other := by cases p <;> decide

theorem eq_other_of_ne (h : q ≠ p) : q = p.other := by cases p <;> cases q <;> first | rfl | exact absurd rfl h

theorem busy_eq_false_iff : s.busy p = false ↔ (s.port p).xfer = none := by
  simp [State.busy, PortRegs.busy]

theorem busy_eq_true_iff : s.busy p = true ↔ ∃ x, (s.port p).xfer = some x := by
  simp [State.busy, PortRegs.busy, Option.isSome_iff_exists]

/-! ### setPort -/

@[simp] theorem port_setPort_same (r : PortRegs) : (s.setPort p r).port p = r := by cases p <;> rfl

@[simp] theorem port_setPort_other (r : PortRegs) : (s.setPort p r).port p.other = s.port p.other := by
  cases p <;> rfl

theorem port_setPort_of_ne (r : PortRegs) (h : q ≠ p) : (s.setPort p r).port q = s.port q := by
  cases p <;> cases q <;> first | rfl | exact absurd rfl h

@[simp] theorem setPort_setPort (r r' : PortRegs) : (s.setPort p r).setPort p r' = s.setPort p r' := by
  cases p <;> rfl

@[simp] theorem setPort_port : s.setPort p (s.port p) = s := by cases p <;> rfl

@[simp] theorem buf_setPort (r : PortRegs) : (s.setPort p r).buf = s.buf := by cases p <;> rfl

@[simp] theorem mem_setPort (r : PortRegs) : (s.setPort p r).mem = s.mem := by cases p <;> rfl

@[simp] theorem plat_setPort (r : PortRegs) : (s.setPort p r).plat = s.plat := by cases p <;> rfl

@[simp] theorem agenda_setPort (r : PortRegs) : (s.setPort p r).agenda = s.agenda := by cases p <;> rfl

@[simp] theorem meanwhile_setPort (r : PortRegs) : (s.setPort p r).meanwhile = s.meanwhile := by cases p <;> rfl

@[simp] theorem readData_setPort (r : PortRegs) : (s.setPort p r).readData = s.readData := by cases p <;> rfl

/-! ### setXfer -/

@[simp] theorem port_setXfer_same (v : Option Xfer) : (s.setXfer p v).port p = { s.port p with xfer := v } := by
  simp [State.setXfer]

@[simp] theorem port_setXfer_other (v : Option Xfer) : (s.setXfer p v).port p.other = s.port p.other := by
  simp [State.setXfer]

theorem port_setXfer_of_ne (v : Option Xfer) (h : q ≠ p) : (s.setXfer p v).port q = s.port q := by
  rw [State.setXfer, port_setPort_of_ne _ _ _ _ h]

@[simp] theorem buf_setXfer (v : Option Xfer) : (s.setXfer p v).buf = s.buf := by simp [State.setXfer]

@[simp] theorem mem_setXfer (v : Option Xfer) : (s.setXfer p v).mem = s.mem := by simp [State.setXfer]

@[simp] theorem plat_setXfer (v : Option Xfer) : (s.setXfer p v).plat = s.plat := by simp [State.setXfer]

@[simp] theorem agenda_setXfer (v : Option Xfer) : (s.setXfer p v).agenda = s.agenda := by simp [State.setXfer]

@[simp] theorem meanwhile_setXfer (v : Option Xfer) : (s.setXfer p v).meanwhile = s.meanwhile := by simp [State.setXfer]

@[simp] theorem readData_setXfer (v : Option Xfer) : (s.setXfer p v).readData = s.readData := by simp [State.setXfer]

/-! ### setOvr -/

@[simp] theorem port_setOvr_same (v : Bool) : (s.setOvr p v).port p = { s.port p with ovr := v } := by
  simp [State.setOvr]

@[simp] theorem port_setOvr_other (v : Bool) : (s.setOvr p v).port p.other = s.port p.other := by
  simp [State.setOvr]

theorem port_setOvr_of_ne (v : Bool) (h : q ≠ p) : (s.setOvr p v).port q = s.port q := by
  rw [State.setOvr, port_setPort_of_ne _ _ _ _ h]

@[simp] theorem buf_setOvr (v : Bool) : (s.setOvr p v).buf = s.buf := by simp [State.setOvr]

@[simp] theorem mem_setOvr (v : Bool) : (s.setOvr p v).mem = s.mem := by simp [State.setOvr]

@[simp] theorem plat_setOvr (v : Bool) : (s.setOvr p v).plat = s.plat := by simp [State.setOvr]

@[simp] theorem agenda_setOvr (v : Bool) : (s.setOvr p v).agenda = s.agenda := by simp [State.setOvr]

@[simp] theorem meanwhile_setOvr (v : Bool) : (s.setOvr p v).meanwhile = s.meanwhile := by simp [State.setOvr]

@[simp] theorem readData_setOvr (v : Bool) : (s.setOvr p v).readData = s.readData := by simp [State.setOvr]

/-! ### setResult -/

@[simp] theorem port_setResult_same (v : Word) : (s.setResult p v).port p = { s.port p with result := v } := by
  simp [State.setResult]

@[simp] theorem port_setResult_other (v : Word) : (s.setResult p v).port p.other = s.port p.other := by
  simp [State.setResult]

theorem port_setResult_of_ne (v : Word) (h : q ≠ p) : (s.setResult p v).port q = s.port q := by
  rw [State.setResult, port_setPort_of_ne _ _ _ _ h]

@[simp] theorem buf_setResult (v : Word) : (s.setResult p v).buf = s.buf := by simp [State.setResult]

@[simp] theorem mem_setResult (v : Word) : (s.setResult p v).mem = s.mem := by simp [State.setResult]

@[simp] theorem plat_setResult (v : Word) : (s.setResult p v).plat = s.plat := by simp [State.setResult]

@[simp] theorem agenda_setResult (v : Word) : (s.setResult p v).agenda = s.agenda := by simp [State.setResult]

@[simp] theorem meanwhile_setResult (v : Word) : (s.setResult p v).meanwhile = s.meanwhile := by simp [State.setResult]

@[simp] theorem readData_setResult (v : Word) : (s.setResult p v).readData = s.readData := by simp [State.setResult]

/-! ### setErr -/

@[simp] theorem port_setErr_same (v : ErrCode) : (s.setErr p v).port p = { s.port p with err := v } := by
  simp [State.setErr]

@[simp] theorem port_setErr_other (v : ErrCode) : (s.setErr p v).port p.other = s.port p.other := by
  simp [State.setErr]

theorem port_setErr_of_ne (v : ErrCode) (h : q ≠ p) : (s.setErr p v).port q = s.port q := by
  rw [State.setErr, port_setPort_of_ne _ _ _ _ h]

@[simp] theorem buf_setErr (v : ErrCode) : (s.setErr p v).buf = s.buf := by simp [State.setErr]

@[simp] theorem mem_setErr (v : ErrCode) : (s.setErr p v).mem = s.mem := by simp [State.setErr]

@[simp] theorem plat_setErr (v : ErrCode) : (s.setErr p v).plat = s.plat := by simp [State.setErr]

@[simp] theorem agenda_setErr (v : ErrCode) : (s.setErr p v).agenda = s.agenda := by simp [State.setErr]

@[simp] theorem meanwhile_setErr (v : ErrCode) : (s.setErr p v).meanwhile = s.meanwhile := by simp [State.setErr]

@[simp] theorem readData_setErr (v : ErrCode) : (s.setErr p v).readData = s.readData := by simp [State.setErr]

/-! ### setArg0 -/

@[simp] theorem port_setArg0_same (v : Word) : (s.setArg0 p v).port p = { s.port p with arg0 := v } := by
  simp [State.setArg0]

@[simp] theorem port_setArg0_other (v : Word) : (s.setArg0 p v).port p.other = s.port p.other := by
  simp [State.setArg0]

theorem port_setArg0_of_ne (v : Word) (h : q ≠ p) : (s.setArg0 p v).port q = s.port q := by
  rw [State.setArg0, port_setPort_of_ne _ _ _ _ h]

@[simp] theorem buf_setArg0 (v : Word) : (s.setArg0 p v).buf = s.buf := by simp [State.setArg0]

@[simp] theorem mem_setArg0 (v : Word) : (s.setArg0 p v).mem = s.mem := by simp [State.setArg0]

@[simp] theorem plat_setArg0 (v : Word) : (s.setArg0 p v).plat = s.plat := by simp [State.setArg0]

@[simp] theorem agenda_setArg0 (v : Word) : (s.setArg0 p v).agenda = s.agenda := by simp [State.setArg0]

@[simp] theorem meanwhile_setArg0 (v : Word) : (s.setArg0 p v).meanwhile = s.meanwhile := by simp [State.setArg0]

@[simp] theorem readData_setArg0 (v : Word) : (s.setArg0 p v).readData = s.readData := by simp [State.setArg0]

/-! ### setArg1 -/

@[simp] theorem port_setArg1_same (v : Word) : (s.setArg1 p v).port p = { s.port p with arg1 := v } := by
  simp [State.setArg1]

@[simp] theorem port_setArg1_other (v : Word) : (s.setArg1 p v).port p.other = s.port p.other := by
  simp [State.setArg1]

theorem port_setArg1_of_ne (v : Word) (h : q ≠ p) : (s.setArg1 p v).port q = s.port q := by
  rw [State.setArg1, port_setPort_of_ne _ _ _ _ h]

@[simp] theorem buf_setArg1 (v : Word) : (s.setArg1 p v).buf = s.buf := by simp [State.setArg1]

@[simp] theorem mem_setArg1 (v : Word) : (s.setArg1 p v).mem = s.mem := by simp [State.setArg1]

@[simp] theorem plat_setArg1 (v : Word) : (s.setArg1 p v).plat = s.plat := by simp [State.setArg1]

@[simp] theorem agenda_setArg1 (v : Word) : (s.setArg1 p v).agenda = s.agenda := by simp [State.setArg1]

@[simp] theorem meanwhile_setArg1 (v : Word) : (s.setArg1 p v).meanwhile = s.meanwhile := by simp [State.setArg1]

@[simp] theorem readData_setArg1 (v : Word) : (s.setArg1 p v).readData = s.readData := by simp [State.setArg1]

/-! ### setArg2 -/

@[simp] theorem port_setArg2_same (v : Word) : (s.setArg2 p v).port p = { s.port p with arg2 := v } := by
  simp [State.setArg2]

@[simp] theorem port_setArg2_other (v : Word) : (s.setArg2 p v).port p.other = s.port p.other := by
  simp [State.setArg2]

theorem port_setArg2_of_ne (v : Word) (h : q ≠ p) : (s.setArg2 p v).port q = s.port q := by
  rw [State.setArg2, port_setPort_of_ne _ _ _ _ h]

@[simp] theorem buf_setArg2 (v : Word) : (s.setArg2 p v).buf = s.buf := by simp [State.setArg2]

@[simp] theorem mem_setArg2 (v : Word) : (s.setArg2 p v).mem = s.mem := by simp [State.setArg2]

@[simp] theorem plat_setArg2 (v : Word) : (s.setArg2 p v).plat = s.plat := by simp [State.setArg2]

@[simp] theorem agenda_setArg2 (v : Word) : (s.setArg2 p v).agenda = s.agenda := by simp [State.setArg2]

@[simp] theorem meanwhile_setArg2 (v : Word) : (s.setArg2 p v).meanwhile = s.meanwhile := by simp [State.setArg2]

@[simp] theorem readData_setArg2 (v : Word) : (s.setArg2 p v).readData = s.readData := by simp [State.setArg2]

/-! ### writeByte and the updates of one whole field -/

@[simp] theorem buf_writeByte (a : Word) (v : Byte) : (s.writeByte a v).buf = s.buf := rfl

@[simp] theorem portP_writeByte (a : Word) (v : Byte) : (s.writeByte a v).portP = s.portP := rfl

@[simp] theorem portC_writeByte (a : Word) (v : Byte) : (s.writeByte a v).portC = s.portC := rfl

@[simp] theorem plat_writeByte (a : Word) (v : Byte) : (s.writeByte a v).plat = s.plat := rfl

@[simp] theorem agenda_writeByte (a : Word) (v : Byte) : (s.writeByte a v).agenda = s.agenda := rfl

@[simp] theorem meanwhile_writeByte (a : Word) (v : Byte) : (s.writeByte a v).meanwhile = s.meanwhile := rfl

@[simp] theorem readData_writeByte (a : Word) (v : Byte) : (s.writeByte a v).readData = s.readData := rfl

@[simp] theorem mem_writeByte (a : Word) (v : Byte) : (s.writeByte a v).mem = Memory.write s.mem a.toNat v := rfl

@[simp] theorem port_writeByte (a : Word) (v : Byte) : (s.writeByte a v).port p = s.port p := by cases p <;> rfl

@[simp] theorem port_with_buf (v : Buffer) : State.port { s with buf := v } p = s.port p := by cases p <;> rfl

@[simp] theorem port_with_mem (v : Memory) : State.port { s with mem := v } p = s.port p := by cases p <;> rfl

@[simp] theorem port_with_agenda (v : List Event) : State.port { s with agenda := v } p = s.port p := by cases p <;> rfl

@[simp] theorem port_with_meanwhile (v : List Event) : State.port { s with meanwhile := v } p = s.port p := by cases p <;> rfl

@[simp] theorem port_with_readData (v : Word) : State.port { s with readData := v } p = s.port p := by cases p <;> rfl

/-! ### Changes to a state's parts determine it -/

theorem state_ext_port {s t : State} (p : Port) (hb : s.buf = t.buf) (hp : s.port p = t.port p)
    (ho : s.port p.other = t.port p.other) (hm : s.mem = t.mem) (hl : s.plat = t.plat) (ha : s.agenda = t.agenda)
    (hw : s.meanwhile = t.meanwhile) (hr : s.readData = t.readData) : s = t := by
  cases s; cases t; cases p <;> simp_all [Port.other, State.port]

end Sys2Proof.Machine
end

