-- ==== Sys2Proof/Laws/Memory.lean ====
section
/-! SUPPORT. Memory: a read after a write, and the canonical form kept by every memory operation. -/

namespace Sys2Proof.Machine

namespace Memory

theorem read_insert_same (m : Memory) (a : Nat) (v : Byte) : read (insert a v m) a = v := by
  induction m with
  | nil => simp [insert, read]
  | cons c m ih =>
    obtain ⟨b, u⟩ := c
    by_cases h : a < b
    · simp [insert, h, read]
    · by_cases h' : a = b
      · simp [insert, h', read]
      · simp [insert, h, h', read, ih]

theorem read_insert_other (m : Memory) {a c : Nat} (v : Byte) (hc : c ≠ a) : read (insert a v m) c = read m c := by
  induction m with
  | nil => simp [insert, read, hc]
  | cons d m ih =>
    obtain ⟨b, u⟩ := d
    by_cases h : a < b
    · simp [insert, h, read, hc]
    · by_cases h' : a = b
      · subst h'; simp [insert, read, hc]
      · simp [insert, h, h', read, ih]

theorem read_erase_same (m : Memory) (a : Nat) : read (erase a m) a = Config.unlistedByte := by
  induction m with
  | nil => rfl
  | cons c m ih =>
    by_cases h : c.1 = a
    · simpa [erase, h] using ih
    · simp only [erase] at ih
      simp [erase, h, read, Ne.symm h, ih]

theorem read_erase_other (m : Memory) {a c : Nat} (hc : c ≠ a) : read (erase a m) c = read m c := by
  induction m with
  | nil => rfl
  | cons d m ih =>
    simp only [erase] at ih
    by_cases h : d.1 = a
    · simp [erase, h, read, hc, ih]
    · simp [erase, h, read, ih]

/-- A read of the address just written gives the byte written. -/
theorem read_write_same (m : Memory) (a : Nat) (v : Byte) : read (write m a v) a = v := by
  by_cases h : v = Config.unlistedByte
  · simp [write, h, read_erase_same]
  · simp [write, h, read_insert_same]

/-- A write leaves every other address as it was. -/
theorem read_write_other (m : Memory) {a c : Nat} (v : Byte) (hc : c ≠ a) : read (write m a v) c = read m c := by
  by_cases h : v = Config.unlistedByte
  · simp [write, h, read_erase_other m hc]
  · simp [write, h, read_insert_other m v hc]

theorem mem_insert_cases {m : Memory} {a : Nat} {v : Byte} {c : Host.Cell} (h : c ∈ insert a v m) :
    c = (a, v) ∨ c ∈ m := by
  induction m with
  | nil => simpa [insert] using h
  | cons d m ih =>
    obtain ⟨b, u⟩ := d
    by_cases h1 : a < b
    · simpa [insert, h1] using h
    · by_cases h2 : a = b
      · subst h2
        simp only [insert, lt_irrefl, if_false, if_true, List.mem_cons] at h
        exact h.imp id (List.mem_cons_of_mem _)
      · simp only [insert, h1, if_false, h2, List.mem_cons] at h
        rcases h with h | h
        · exact .inr (by simp [h])
        · exact (ih h).imp id (List.mem_cons_of_mem _)

theorem insert_sorted {m : Memory} (a : Nat) (v : Byte) (h : m.Pairwise (fun c d => c.1 < d.1)) :
    (insert a v m).Pairwise (fun c d => c.1 < d.1) := by
  induction m with
  | nil => simp [insert]
  | cons d m ih =>
    obtain ⟨b, u⟩ := d
    obtain ⟨hb, hm⟩ := List.pairwise_cons.1 h
    by_cases h1 : a < b
    · simp only [insert, h1, if_true]
      refine List.pairwise_cons.2 ⟨fun c hc => ?_, h⟩
      rcases List.mem_cons.1 hc with rfl | hc
      · exact h1
      · exact lt_trans h1 (hb c hc)
    · by_cases h2 : a = b
      · subst h2
        simp only [insert, lt_irrefl, if_false, if_true]
        exact List.pairwise_cons.2 ⟨hb, hm⟩
      · simp only [insert, h1, if_false, h2]
        refine List.pairwise_cons.2 ⟨fun c hc => ?_, ih hm⟩
        rcases mem_insert_cases hc with rfl | hc
        · exact lt_of_le_of_ne (not_lt.1 h1) (Ne.symm h2)
        · exact hb c hc

/-- Every write keeps the canonical form. -/
theorem write_wf {m : Memory} {a : Nat} (v : Byte) (h : wf m) (ha : a < 2 ^ 32) : wf (write m a v) := by
  obtain ⟨hs, hc⟩ := h
  by_cases hv : v = Config.unlistedByte
  · simp only [write, hv, if_true]
    exact ⟨hs.filter _, fun c hm => hc c (List.mem_of_mem_filter hm)⟩
  · simp only [write, hv, if_false]
    refine ⟨insert_sorted a v hs, fun c hm => ?_⟩
    rcases mem_insert_cases hm with rfl | hm
    · exact ⟨ha, hv⟩
    · exact hc c hm

end Memory

variable (s : State)

/-- A host address is below 2^32, so a byte written through it keeps the canonical form. -/
theorem writeByte_wf (a : Word) (v : Byte) (h : Memory.wf s.mem) : Memory.wf (s.writeByte a v).mem :=
  Memory.write_wf v h a.isLt

@[simp] theorem readByte_writeByte_same (a : Word) (v : Byte) : (s.writeByte a v).readByte a = v :=
  Memory.read_write_same _ _ _

theorem readByte_writeByte_other {a c : Word} (v : Byte) (h : c ≠ a) :
    (s.writeByte a v).readByte c = s.readByte c :=
  Memory.read_write_other _ _ (fun e => h (BitVec.eq_of_toNat_eq e))

theorem readByte_congr {s t : State} (h : s.mem = t.mem) (a : Word) : s.readByte a = t.readByte a := by
  simp [State.readByte, h]

theorem reset_memory_wf : Memory.wf State.reset.mem := by decide

end Sys2Proof.Machine
end

