-- ==== Sys2Proof/Laws/Words.lean ====
section
/-! SUPPORT. The small lemmas of cursors, powers of two, the CSR map and the encoding. -/

namespace Sys2Proof

theorem isPow2_iff (n : Nat) : isPow2 n = true ↔ ∃ k, n = 2 ^ k := by
  constructor
  · intro h
    exact ⟨Nat.log2 n, (beq_iff_eq.1 h).symm⟩
  · rintro ⟨k, rfl⟩
    simp [isPow2, Nat.log2_two_pow]

theorem Platform.W_pos (pl : Platform) : 1 ≤ pl.W := by simp [Platform.W]

theorem Platform.W_le (pl : Platform) : pl.W ≤ 32 := pl.wIndex.isLt

theorem Platform.two_pow_W_le (pl : Platform) : 2 ^ pl.W ≤ 2 ^ 32 := Nat.pow_le_pow_right (by decide) pl.W_le

theorem Platform.two_pow_W_dvd (pl : Platform) : 2 ^ pl.W ∣ 2 ^ 32 := pow_dvd_pow 2 pl.W_le

theorem Platform.csrBase_toNat (pl : Platform) : pl.csrBase.toNat = 0x80 * pl.csrPage.toNat := by
  have := pl.csrPage.isLt
  simp only [Platform.csrBase, BitVec.toNat_ofNat]
  omega

theorem subW_lt (W : Nat) (a b : Word) : subW W a b < 2 ^ W := Nat.mod_lt _ (by positivity)

@[simp] theorem subW_self (W : Nat) (a : Word) : subW W a a = 0 := by simp [subW]

theorem addW_toNat {W : Nat} (hW : W ≤ 32) (a : Word) (n : Nat) : (addW W a n).toNat = (a.toNat + n) % 2 ^ W := by
  rw [addW, BitVec.toNat_ofNat]
  exact Nat.mod_eq_of_lt (lt_of_lt_of_le (Nat.mod_lt _ (by positivity)) (Nat.pow_le_pow_right (by decide) hW))

theorem subW_toNat {W : Nat} (hW : W ≤ 32) (a b : Word) :
    subW W a b = (a.toNat + (2 ^ 32 - b.toNat)) % 2 ^ W := by
  rw [subW, BitVec.toNat_sub, Nat.mod_mod_of_dvd _ (pow_dvd_pow 2 hW), Nat.add_comm]

/-- Two W-bit cursors are their difference apart. -/
theorem subW_spec {W : Nat} (hW : W ≤ 32) {a b : Word} (ha : a.toNat < 2 ^ W) (hb : b.toNat < 2 ^ W) :
    subW W a b = if b.toNat ≤ a.toNat then a.toNat - b.toNat else a.toNat + 2 ^ W - b.toNat := by
  rw [subW_toNat hW]
  obtain ⟨q, hq⟩ := pow_dvd_pow 2 hW
  have hq1 : 1 ≤ q := by
    rcases Nat.eq_zero_or_pos q with h | h
    · simp [h] at hq
    · exact h
  obtain ⟨q', rfl⟩ : ∃ q', q = q' + 1 := ⟨q - 1, by omega⟩
  have hsum : a.toNat + (2 ^ 32 - b.toNat) = a.toNat + 2 ^ W - b.toNat + 2 ^ W * q' := by
    rw [hq, Nat.mul_succ]; omega
  rw [hsum, Nat.add_mul_mod_self_left]
  split
  · rename_i h
    rw [show a.toNat + 2 ^ W - b.toNat = a.toNat - b.toNat + 2 ^ W by omega, Nat.add_mod_right]
    exact Nat.mod_eq_of_lt (by omega)
  · exact Nat.mod_eq_of_lt (by omega)

/-- A difference of cursors, added to the one subtracted, gives the other. -/
theorem subW_add_modEq {W : Nat} (hW : W ≤ 32) (a b : Word) : subW W a b + b.toNat ≡ a.toNat [MOD 2 ^ W] := by
  have hb : b.toNat ≤ 2 ^ 32 := b.isLt.le
  have h32 : (2 ^ 32 : Nat) ≡ 0 [MOD 2 ^ W] := Nat.modEq_zero_iff_dvd.2 (pow_dvd_pow 2 hW)
  have h : subW W a b + b.toNat ≡ a.toNat + (2 ^ 32 - b.toNat) + b.toNat [MOD 2 ^ W] := by
    rw [subW_toNat hW]
    exact (Nat.mod_modEq _ _).add_right _
  refine h.trans ?_
  rw [show a.toNat + (2 ^ 32 - b.toNat) + b.toNat = a.toNat + 2 ^ 32 by omega]
  exact h32.add_left a.toNat

theorem addW_modEq {W : Nat} (hW : W ≤ 32) (a : Word) (n : Nat) : (addW W a n).toNat ≡ a.toNat + n [MOD 2 ^ W] := by
  rw [addW_toNat hW]
  exact Nat.mod_modEq _ _

/-- Moving the write cursor on by `n` raises the difference by `n`, as long as it stays below 2^W. -/
theorem subW_addW_left {W : Nat} (hW : W ≤ 32) (a b : Word) {n : Nat} (h : subW W a b + n < 2 ^ W) :
    subW W (addW W a n) b = subW W a b + n := by
  have h1 := subW_add_modEq hW (addW W a n) b
  have h2 := (subW_add_modEq hW a b).add_right n
  have h3 : subW W (addW W a n) b + b.toNat ≡ subW W a b + n + b.toNat [MOD 2 ^ W] := by
    refine h1.trans ((addW_modEq hW a n).trans (h2.symm.trans ?_))
    rw [show subW W a b + b.toNat + n = subW W a b + n + b.toNat by omega]
  exact (Nat.ModEq.add_right_cancel' _ h3).eq_of_lt_of_lt (subW_lt _ _ _) h

/-- Moving the read cursor on by `n`, at most the difference, lowers it by `n`. -/
theorem subW_addW_right {W : Nat} (hW : W ≤ 32) (a b : Word) {n : Nat} (h : n ≤ subW W a b) :
    subW W a (addW W b n) = subW W a b - n := by
  have h1 := subW_add_modEq hW a (addW W b n)
  have h2 := subW_add_modEq hW a b
  have h3 : subW W a (addW W b n) + (n + b.toNat) ≡ subW W a b - n + (n + b.toNat) [MOD 2 ^ W] := by
    have h4 : subW W a (addW W b n) + (n + b.toNat) ≡ subW W a (addW W b n) + (addW W b n).toNat [MOD 2 ^ W] := by
      rw [Nat.add_comm n]
      exact ((addW_modEq hW b n).symm).add_left _
    refine h4.trans (h1.trans (h2.symm.trans ?_))
    rw [show subW W a b - n + (n + b.toNat) = subW W a b + b.toNat by omega]
  exact (Nat.ModEq.add_right_cancel' _ h3).eq_of_lt_of_lt (subW_lt _ _ _)
    (lt_of_le_of_lt (Nat.sub_le _ _) (subW_lt _ _ _))

theorem addrAdd_toNat (a : Word) (k : Nat) : (addrAdd a k).toNat = (a.toNat + k) % 2 ^ 32 := by
  simp [addrAdd, BitVec.toNat_add]

/-- Offsets below 2^32 name different addresses. -/
theorem addrAdd_inj {a : Word} {j k : Nat} (hj : j < 2 ^ 32) (hk : k < 2 ^ 32) (h : addrAdd a j = addrAdd a k) :
    j = k := by
  have := BitVec.add_right_inj _ |>.1 h
  have := congrArg BitVec.toNat this
  simp only [BitVec.toNat_ofNat] at this
  rwa [Nat.mod_eq_of_lt hj, Nat.mod_eq_of_lt hk] at this

/-! ### The encoding -/

theorem fieldOpc_encode (i : Instr) : fieldOpc (encode i) = opcode i := by cases i <;> rfl

theorem encode_toNat (i : Instr) : (encode i).toNat = (opcode i).toNat := by cases i <;> rfl

namespace Machine

/-! ### The CSR map -/

/-- Each register is found at its offset. -/
@[simp] theorem csrAt_offset (c : Csr) : csrAt c.offset = some c := by
  cases c <;> first | rfl | (rename_i p; cases p <;> rfl)

/-- A register's offset is 4-byte aligned, so a 32-bit access there is admitted. -/
@[simp] theorem csrAccessAdmitted_offset (c : Csr) : csrAccessAdmitted .word c.offset = true := by
  cases c <;> first | rfl | (rename_i p; cases p <;> rfl)

/-- A 32-bit write at a register's offset reaches that register. -/
@[simp] theorem hostCsrWrite_offset (c : Csr) (v : Word) (s : State) :
    hostCsrWrite .word c.offset v s = writeCsr c v s := by
  simp [hostCsrWrite]

/-- A 32-bit read at a register's offset returns that register. -/
@[simp] theorem hostCsrRead_offset (c : Csr) (s : State) :
    hostCsrRead .word c.offset s = .next { s with readData := c.value s } := by
  simp [hostCsrRead, csrValueAt]

end Machine

end Sys2Proof
end

