-- ==== Sys2Proof/Laws/Engine.lean ====
section
/-! SUPPORT. What an engine's step can do, said once. -/

namespace Sys2Proof.Machine

variable {s t : State} {p : Port} {x : Xfer}

/-- Everything a copy step can do when it goes on. -/
theorem copyStep_next {src dst : Word} (h : copyStep p x src dst s = some t) :
    s.plat.memAdmit src .read = true ∧ s.plat.memAdmit dst .write = true ∧
    t = (s.writeByte dst (s.readByte src)).setXfer p (some { x with k := x.k + 1 }) := by
  unfold copyStep at h
  split at h
  · rename_i hc
    simp only [Bool.and_eq_true] at hc
    exact ⟨hc.1, hc.2, (Option.some.inj h).symm⟩
  · cases h

theorem copyStep_ok {src dst : Word} (h1 : s.plat.memAdmit src .read = true) (h2 : s.plat.memAdmit dst .write = true) :
    copyStep p x src dst s = some ((s.writeByte dst (s.readByte src)).setXfer p (some { x with k := x.k + 1 })) := by
  simp [copyStep, h1, h2]

/-- There is no copy step exactly where one of its accesses is withheld. -/
theorem copyStep_none {src dst : Word} : copyStep p x src dst s = none ↔
    s.plat.memAdmit src .read = false ∨ s.plat.memAdmit dst .write = false := by
  unfold copyStep
  cases h1 : s.plat.memAdmit src .read <;> cases h2 : s.plat.memAdmit dst .write <;> simp

/-! ### The dispatch, case by case -/

theorem engineStep_idle (h : (s.port p).xfer = none) : engineStep p s = none := by
  simp [engineStep, h]

theorem engineStep_P (h : s.portP.xfer = some x) : engineStep .P s = engineStepP x s := by
  simp [engineStep, port_P, h]

theorem engineStep_C (h : s.portC.xfer = some x) : engineStep .C s = engineStepC x s := by
  simp [engineStep, port_C, h]

theorem engineStepP_copy (hd : x.dir = .IN) (hk : x.k < x.B) : engineStepP x s = enqCopy x s := by
  simp [engineStepP, hd, hk]

theorem engineStepP_complete (hd : x.dir = .IN) (hk : x.k = x.B) : engineStepP x s = enqComplete x s := by
  simp [engineStepP, hd, hk]

theorem engineStepC_copy (hd : x.dir = .OUT) (hk : x.k < x.B) : engineStepC x s = deqCopy x s := by
  simp [engineStepC, hd, hk]

theorem engineStepC_complete (hd : x.dir = .OUT) (hk : x.k = x.B) : engineStepC x s = deqComplete x s := by
  simp [engineStepC, hd, hk]

/-- Everything engine P can do: copy the next byte, or complete. -/
theorem engineStep_P_cases (h : engineStep .P s = some t) : ∃ x, s.portP.xfer = some x ∧ x.dir = .IN ∧
    ((x.k < x.B ∧ s.plat.memAdmit (externalAddr x) .read = true ∧ s.plat.memAdmit (storeAddr s x) .write = true ∧
        t = (s.writeByte (storeAddr s x) (s.readByte (externalAddr x))).setXfer .P (some { x with k := x.k + 1 })) ∨
     (x.k = x.B ∧
        t = endTransfer .P x { s with buf := { s.buf with wc := addW s.plat.W s.buf.wc x.n } })) := by
  cases hx : s.portP.xfer with
  | none => rw [engineStep_idle (p := .P) hx] at h; cases h
  | some x =>
    rw [engineStep_P hx, engineStepP] at h
    refine ⟨x, rfl, ?_⟩
    split at h
    · rename_i hc
      obtain ⟨h1, h2, h3⟩ := copyStep_next h
      exact ⟨hc.1, .inl ⟨hc.2, h1, h2, h3⟩⟩
    · split at h
      · rename_i hc
        exact ⟨hc.1, .inr ⟨hc.2, (Option.some.inj h).symm⟩⟩
      · cases h

/-- Everything engine C can do: copy the next byte, or complete. -/
theorem engineStep_C_cases (h : engineStep .C s = some t) : ∃ x, s.portC.xfer = some x ∧ x.dir = .OUT ∧
    ((x.k < x.B ∧ s.plat.memAdmit (storeAddr s x) .read = true ∧ s.plat.memAdmit (externalAddr x) .write = true ∧
        t = (s.writeByte (externalAddr x) (s.readByte (storeAddr s x))).setXfer .C (some { x with k := x.k + 1 })) ∨
     (x.k = x.B ∧
        t = endTransfer .C x { s with buf := { s.buf with rc := addW s.plat.W s.buf.rc x.n } })) := by
  cases hx : s.portC.xfer with
  | none => rw [engineStep_idle (p := .C) hx] at h; cases h
  | some x =>
    rw [engineStep_C hx, engineStepC] at h
    refine ⟨x, rfl, ?_⟩
    split at h
    · rename_i hc
      obtain ⟨h1, h2, h3⟩ := copyStep_next h
      exact ⟨hc.1, .inl ⟨hc.2, h1, h2, h3⟩⟩
    · split at h
      · rename_i hc
        exact ⟨hc.1, .inr ⟨hc.2, (Option.some.inj h).symm⟩⟩
      · cases h

/-! ### Where an engine has no step -/

/-- Engine P has no step exactly where it is idle, where an access is withheld, and where its record is one that no rule
gives a step for. -/
theorem engineStep_P_none : engineStep .P s = none ↔ ∀ x, s.portP.xfer = some x →
    (x.dir = .IN ∧ x.k < x.B ∧
      (s.plat.memAdmit (externalAddr x) .read = false ∨ s.plat.memAdmit (storeAddr s x) .write = false)) ∨
    ¬ (x.dir = .IN ∧ x.k ≤ x.B) := by
  cases hx : s.portP.xfer with
  | none => simp [engineStep_idle (p := .P) hx]
  | some x =>
    rw [engineStep_P hx, engineStepP]
    simp only [Option.some.injEq, forall_eq']
    split
    · rename_i hc
      simp [enqCopy, copyStep_none, hc.1, hc.2, hc.2.le]
    · split
      · rename_i hc
        simp [enqComplete, hc.1, hc.2]
      · rename_i h1 h2
        refine iff_of_true rfl (.inr fun hc => ?_)
        rcases Nat.lt_or_eq_of_le hc.2 with hk | hk
        · exact h1 ⟨hc.1, hk⟩
        · exact h2 ⟨hc.1, hk⟩

/-- Engine C has no step exactly where it is idle, where an access is withheld, and where its record is one that no rule
gives a step for. -/
theorem engineStep_C_none : engineStep .C s = none ↔ ∀ x, s.portC.xfer = some x →
    (x.dir = .OUT ∧ x.k < x.B ∧
      (s.plat.memAdmit (storeAddr s x) .read = false ∨ s.plat.memAdmit (externalAddr x) .write = false)) ∨
    ¬ (x.dir = .OUT ∧ x.k ≤ x.B) := by
  cases hx : s.portC.xfer with
  | none => simp [engineStep_idle (p := .C) hx]
  | some x =>
    rw [engineStep_C hx, engineStepC]
    simp only [Option.some.injEq, forall_eq']
    split
    · rename_i hc
      simp [deqCopy, copyStep_none, hc.1, hc.2, hc.2.le]
    · split
      · rename_i hc
        simp [deqComplete, hc.1, hc.2]
      · rename_i h1 h2
        refine iff_of_true rfl (.inr fun hc => ?_)
        rcases Nat.lt_or_eq_of_le hc.2 with hk | hk
        · exact h1 ⟨hc.1, hk⟩
        · exact h2 ⟨hc.1, hk⟩

/-! ### An engine's turn -/

theorem engineTurn_some (h : engineStep p s = some t) : engineTurn p s = t := by simp [engineTurn, h]

theorem engineTurn_none (h : engineStep p s = none) : engineTurn p s = s := by simp [engineTurn, h]

/-- Everything an engine's turn can do: its step, or nothing. -/
theorem engineTurn_cases (p : Port) (s : State) :
    engineStep p s = some (engineTurn p s) ∨ (engineStep p s = none ∧ engineTurn p s = s) := by
  cases h : engineStep p s with
  | none => exact .inr ⟨rfl, engineTurn_none h⟩
  | some t => exact .inl (by rw [engineTurn_some h])

end Sys2Proof.Machine
end

