-- ==== Sys2Proof/Laws/Issue.lean ====
section
/-! SUPPORT. What issuing a command can do: the shared operations first, then every command through them. -/

namespace Sys2Proof.Machine

variable (p : Port) (s : State)

/-- A failed command writes ERR[p] and RESULT[p] and nothing else. -/
theorem raise_eq (code : ErrCode) : raise p code s = s.setPort p { s.port p with err := code, result := 0 } := by
  simp [raise, State.setErr, State.setResult]

theorem finish_eq (v : Word) : finish p v s = s.setPort p { s.port p with err := .ok, result := v } := by
  simp [finish, State.setErr, State.setResult]

theorem startTransfer_eq (x : Xfer) :
    startTransfer p x s = s.setPort p { s.port p with xfer := some x, err := .ok } := by
  simp [startTransfer, State.setErr, State.setXfer]

theorem endTransfer_eq (x : Xfer) :
    endTransfer p x s = s.setPort p { s.port p with xfer := none, result := BitVec.ofNat 32 x.n } := by
  simp [endTransfer, State.setResult, State.setXfer]

variable {p s}

theorem accept_busy {body : State → State} (h : s.busy p = true) : accept p body s = .next (s.setOvr p true) := by
  simp [accept, h]

theorem accept_idle {body : State → State} (h : s.busy p = false) :
    accept p body s = .next (body (s.setOvr p false)) := by
  simp [accept, h]

@[simp] theorem busy_setOvr (q : Port) (b : Bool) : (s.setOvr p b).busy q = s.busy q := by
  by_cases h : q = p
  · subst h; simp [State.busy, PortRegs.busy]
  · simp [State.busy, port_setOvr_of_ne _ _ _ _ h]

@[simp] theorem port_setOvr_setPort (q : Port) (b : Bool) (r : PortRegs) :
    (s.setOvr q b).setPort q r = s.setPort q r := by
  simp [State.setOvr]

/-- Everything `issue` can do. -/
theorem issue_cases {admitted needsBuffer needsOtherIdle : Bool} {perform : State → State} {t : State}
    (h : issue p admitted needsBuffer needsOtherIdle perform s = .next t) :
    (s.busy p = true ∧ t = s.setOvr p true) ∨
    (s.busy p = false ∧ ∃ code, code ≠ ErrCode.ok ∧
      t = s.setPort p { s.port p with ovr := false, err := code, result := 0 }) ∨
    (s.busy p = false ∧ admitted = true ∧ (needsBuffer = true → s.buf.cfg = true) ∧
      (needsOtherIdle = true → s.busy p.other = false) ∧ t = perform (s.setOvr p false)) := by
  by_cases hb : s.busy p = true
  · rw [issue, accept_busy hb] at h
    exact .inl ⟨hb, (Host.Outcome.next.inj h).symm⟩
  · have hb : s.busy p = false := by simpa using hb
    simp only [issue, accept_idle hb, Host.Outcome.next.injEq, busy_setOvr, buf_setOvr] at h
    subst h
    refine .inr ?_
    split
    · exact .inl ⟨hb, .wrongPort, by decide, by simp [raise_eq]⟩
    · split
      · exact .inl ⟨hb, .notConfigured, by decide, by simp [raise_eq]⟩
      · split
        · exact .inl ⟨hb, .otherBusy, by decide, by simp [raise_eq]⟩
        · rename_i h1 h2 h3
          exact .inr ⟨hb, by simpa using h1, by simpa using h2, by simpa using h3, rfl⟩

theorem issue_total (p : Port) (a b c : Bool) (f : State → State) (s : State) : ∃ t, issue p a b c f s = .next t := by
  unfold issue accept
  split <;> exact ⟨_, rfl⟩

/-- An issue on an idle port that passes every check does the command's issue part. -/
theorem issue_ok {admitted needsBuffer needsOtherIdle : Bool} {perform : State → State} (hb : s.busy p = false)
    (h1 : admitted = true) (h2 : needsBuffer = true → s.buf.cfg = true)
    (h3 : needsOtherIdle = true → s.busy p.other = false) :
    issue p admitted needsBuffer needsOtherIdle perform s = .next (perform (s.setOvr p false)) := by
  have h2' : (needsBuffer && !s.buf.cfg) = false := by simpa using h2
  have h3' : (needsOtherIdle && s.busy p.other) = false := by simpa using h3
  simp only [issue, accept_idle hb, busy_setOvr, buf_setOvr, h2', h3', h1, Bool.not_true, Bool.false_eq_true, if_false]

/-- Everything CONFIG's issue part can do. -/
theorem configBody_cases (p : Port) (s : State) :
    (∃ code, code ≠ ErrCode.ok ∧ configBody p s = raise p code s) ∨
    (0 < (s.port p).arg2.toNat ∧ isPow2 (configCapacity p s) = true ∧ configCapacity p s ≤ 2 ^ (s.plat.W - 1) ∧
      configBody p s = finish p (BitVec.ofNat 32 (configCapacity p s)) { s with buf := configuredBuffer p s }) := by
  unfold configBody
  split
  · exact .inl ⟨_, by decide, rfl⟩
  · split
    · exact .inl ⟨_, by decide, rfl⟩
    · split
      · exact .inl ⟨_, by decide, rfl⟩
      · rename_i h1 h2 h3
        refine .inr ⟨Nat.pos_of_ne_zero fun h => h1 (BitVec.eq_of_toNat_eq h), by simpa using h2, by omega, rfl⟩

/-- Everything a query can do. -/
theorem query_cases {f : State → Word} {t : State} (h : query p f s = .next t) :
    (s.busy p = true ∧ t = s.setOvr p true) ∨
    (s.busy p = false ∧ ∃ code, code ≠ ErrCode.ok ∧
      t = s.setPort p { s.port p with ovr := false, err := code, result := 0 }) ∨
    (s.busy p = false ∧ s.buf.cfg = true ∧
      t = s.setPort p { s.port p with ovr := false, err := .ok, result := f (s.setOvr p false) }) := by
  obtain h | h | ⟨hb, -, h2, -, rfl⟩ := issue_cases h
  · exact .inl h
  · exact .inr (.inl h)
  · exact .inr (.inr ⟨hb, h2 rfl, by simp [finish_eq]⟩)

/-- Everything a command can do: dropped on a busy port, failed, or performed by its issue part. -/
theorem exec_cases {i : Instr} {t : State} (h : exec i s = .next t) :
    (s.busy i.port = true ∧ t = s.setOvr i.port true) ∨
    (s.busy i.port = false ∧ ∃ code, code ≠ ErrCode.ok ∧
      t = s.setPort i.port { s.port i.port with ovr := false, err := code, result := 0 }) ∨
    (s.busy i.port = false ∧
      ((∃ p, i = .config p ∧ s.busy p.other = false ∧ 0 < (s.port p).arg2.toNat ∧
          isPow2 (configCapacity p s) = true ∧ configCapacity p s ≤ 2 ^ (s.plat.W - 1) ∧
          t = State.setPort { s with buf := configuredBuffer p s } p
            { s.port p with ovr := false, err := .ok, result := BitVec.ofNat 32 (configCapacity p s) }) ∨
       (i = .enq .P ∧ s.buf.cfg = true ∧
          t = s.setPort .P { s.portP with ovr := false, err := .ok, xfer := some (planXfer s.buf .IN s.portP.arg0
            s.buf.wc (min s.portP.arg1.toNat s.free)) }) ∨
       (i = .deq .C ∧ s.buf.cfg = true ∧
          t = s.setPort .C { s.portC with ovr := false, err := .ok, xfer := some (planXfer s.buf .OUT s.portC.arg0
            s.buf.rc (min s.portC.arg1.toNat s.occ)) }) ∨
       (∃ p, i = .clear p ∧ s.buf.cfg = true ∧ s.busy p.other = false ∧
          t = State.setPort { s with buf := { s.buf with wc := 0, rc := 0 } } p
            { s.port p with ovr := false, err := .ok, result := 0 }) ∨
       (∃ p v, i ∈ [Instr.qocc p, .qspace p, .qempty p, .qfull p, .qcap p, .qesize p] ∧ s.buf.cfg = true ∧
          t = s.setPort p { s.port p with ovr := false, err := .ok, result := v }))) := by
  cases i with
  | config p =>
    obtain h | h | ⟨hb, -, -, h3, rfl⟩ := issue_cases h
    · exact .inl h
    · exact .inr (.inl h)
    · obtain ⟨code, hc, he⟩ | ⟨h4, h5, h6, he⟩ := configBody_cases p (s.setOvr p false)
      · exact .inr (.inl ⟨hb, code, hc, by simp [he, raise_eq, Instr.port]⟩)
      · have hcap : configCapacity p (s.setOvr p false) = configCapacity p s := by
          simp [configCapacity, operandLength, operandElementSize]
        have hbuf : configuredBuffer p (s.setOvr p false) = configuredBuffer p s := by
          simp [configuredBuffer, operandBase, operandElementSize, hcap]
        rw [hcap] at h5 h6 he
        rw [hbuf] at he
        refine .inr (.inr ⟨hb, .inl ⟨p, rfl, h3 rfl, by simpa using h4, h5, by simpa using h6, ?_⟩⟩)
        rw [he, finish_eq]
        cases p <;> simp [State.setOvr, State.setPort, State.port]
  | enq p =>
    obtain h | h | ⟨hb, h1, h2, -, rfl⟩ := issue_cases h
    · exact .inl h
    · exact .inr (.inl h)
    · obtain rfl : p = .P := by simpa using h1
      refine .inr (.inr ⟨hb, .inr (.inl ⟨rfl, h2 rfl, ?_⟩)⟩)
      simp [enqBody, startTransfer_eq, operandExternal, operandCount, State.free, State.occ,
        State.setOvr, State.setPort, State.port]
  | deq p =>
    obtain h | h | ⟨hb, h1, h2, -, rfl⟩ := issue_cases h
    · exact .inl h
    · exact .inr (.inl h)
    · obtain rfl : p = .C := by simpa using h1
      refine .inr (.inr ⟨hb, .inr (.inr (.inl ⟨rfl, h2 rfl, ?_⟩))⟩)
      simp [deqBody, startTransfer_eq, operandExternal, operandCount, State.occ,
        State.setOvr, State.setPort, State.port]
  | clear p =>
    obtain h | h | ⟨hb, -, h2, h3, rfl⟩ := issue_cases h
    · exact .inl h
    · exact .inr (.inl h)
    · refine .inr (.inr ⟨hb, .inr (.inr (.inr (.inl ⟨p, rfl, h2 rfl, h3 rfl, ?_⟩)))⟩)
      cases p <;> simp [clearBody, finish_eq, State.setOvr, State.setPort, State.port]
  | qocc p =>
    simp only [exec, execQocc] at h
    obtain h | h | ⟨hb, hc, rfl⟩ := query_cases h
    · exact .inl h
    · exact .inr (.inl h)
    · exact .inr (.inr ⟨hb, .inr (.inr (.inr (.inr ⟨p, _, by simp, hc, rfl⟩)))⟩)
  | qspace p =>
    simp only [exec, execQspace] at h
    obtain h | h | ⟨hb, hc, rfl⟩ := query_cases h
    · exact .inl h
    · exact .inr (.inl h)
    · exact .inr (.inr ⟨hb, .inr (.inr (.inr (.inr ⟨p, _, by simp, hc, rfl⟩)))⟩)
  | qempty p =>
    simp only [exec, execQempty] at h
    obtain h | h | ⟨hb, hc, rfl⟩ := query_cases h
    · exact .inl h
    · exact .inr (.inl h)
    · exact .inr (.inr ⟨hb, .inr (.inr (.inr (.inr ⟨p, _, by simp, hc, rfl⟩)))⟩)
  | qfull p =>
    simp only [exec, execQfull] at h
    obtain h | h | ⟨hb, hc, rfl⟩ := query_cases h
    · exact .inl h
    · exact .inr (.inl h)
    · exact .inr (.inr ⟨hb, .inr (.inr (.inr (.inr ⟨p, _, by simp, hc, rfl⟩)))⟩)
  | qcap p =>
    simp only [exec, execQcap] at h
    obtain h | h | ⟨hb, hc, rfl⟩ := query_cases h
    · exact .inl h
    · exact .inr (.inl h)
    · exact .inr (.inr ⟨hb, .inr (.inr (.inr (.inr ⟨p, _, by simp, hc, rfl⟩)))⟩)
  | qesize p =>
    simp only [exec, execQesize] at h
    obtain h | h | ⟨hb, hc, rfl⟩ := query_cases h
    · exact .inl h
    · exact .inr (.inl h)
    · exact .inr (.inr ⟨hb, .inr (.inr (.inr (.inr ⟨p, _, by simp, hc, rfl⟩)))⟩)

end Sys2Proof.Machine
end

