-- ==== Sys2Proof/Laws/PerInstr.lean ====
section
/-! SUPPORT. A fact about every command as syntax: its word has RSVD = 0 (30_encoding.md R91). -/

namespace Sys2Proof.Laws.ReservedBitsClear

/-- The reserved field of a command's word is 0. -/
def Statement (i : Instr) : Prop := fieldRsvd (encode i) = 0

theorem config (p : Port) : Statement (.config p) := by cases p <;> unfold Statement <;> decide

theorem enq (p : Port) : Statement (.enq p) := by cases p <;> unfold Statement <;> decide

theorem deq (p : Port) : Statement (.deq p) := by cases p <;> unfold Statement <;> decide

theorem clear (p : Port) : Statement (.clear p) := by cases p <;> unfold Statement <;> decide

theorem qocc (p : Port) : Statement (.qocc p) := by cases p <;> unfold Statement <;> decide

theorem qspace (p : Port) : Statement (.qspace p) := by cases p <;> unfold Statement <;> decide

theorem qempty (p : Port) : Statement (.qempty p) := by cases p <;> unfold Statement <;> decide

theorem qfull (p : Port) : Statement (.qfull p) := by cases p <;> unfold Statement <;> decide

theorem qcap (p : Port) : Statement (.qcap p) := by cases p <;> unfold Statement <;> decide

theorem qesize (p : Port) : Statement (.qesize p) := by cases p <;> unfold Statement <;> decide

end Sys2Proof.Laws.ReservedBitsClear
end

