-- ==== Sys2Proof/Laws/Step.lean ====
section
/-! SUPPORT. What one step can do, said once: every invariant and every whole-machine rule goes through `step_cases`. -/

namespace Sys2Proof.Machine

variable {s t : State}

theorem step_cons {e : Event} {rest : List Event} (h : s.agenda = e :: rest) :
    step s = perform e { s with agenda := rest } := by
  simp [step, h]

theorem step_nil (h : s.agenda = []) : step s = runOn s := by
  simp [step, h]

/-- A 32-bit write at a CMD register's offset issues its word. -/
theorem step_command {p : Port} {w : Word} {rest : List Event}
    (h : s.agenda = .csrWrite .word (Csr.offset (.cmd p)) w :: rest) : step s = writeCmd p w { s with agenda := rest } := by
  rw [step_cons h, perform, hostCsrWrite_offset, writeCsr]

theorem writeCmd_ok {p : Port} {w : Word} {i : Instr} (h : decode p w = .ok i) : writeCmd p w s = exec i s := by
  simp [writeCmd, h]

theorem writeCmd_illegal {p : Port} {w : Word} (h : ¬ ∃ i, decode p w = .ok i) :
    writeCmd p w s = accept p (raise p .illegal) s := by
  unfold writeCmd
  split
  · rename_i i hi; exact absurd ⟨i, hi⟩ h
  · rfl

/-- The agenda of a state whose next step is engine `p`'s, and what is left of it: its turn, or no step asked for. -/
def EngineTurn (p : Port) (s : State) (rest : List Event) : Prop :=
  s.agenda = .engine p :: rest ∨ (s.agenda = [] ∧ rest = [])

/-- Everything the machine does with no step asked for and a next state. -/
theorem runOn_cases (h : runOn s = .next t) :
    (∃ p, engineStep p s = some t) ∨ (s.busy .P = false ∧ s.busy .C = false ∧ t = s) := by
  unfold runOn at h
  split at h
  · rename_i hp
    exact .inl ⟨.P, by rw [hp, Host.Outcome.next.inj h]⟩
  · rename_i hc
    exact .inl ⟨.C, by rw [hc, Host.Outcome.next.inj h]⟩
  · split at h
    · cases h
    · split at h
      · cases h
      · rename_i h1 h2
        exact .inr ⟨by simpa using h1, by simpa using h2, (Host.Outcome.next.inj h).symm⟩

/-- The machine faults only where no step of any agent is left and a port is busy. -/
theorem runOn_fault {r : Fault} (h : runOn s = .fault r) :
    engineStep .P s = none ∧ engineStep .C s = none ∧ ∃ p, r = .engineStuck p ∧ s.busy p = true := by
  unfold runOn at h
  split at h
  · cases h
  · cases h
  · rename_i hp hc
    refine ⟨hp, hc, ?_⟩
    split at h
    · rename_i hb; exact ⟨.P, (Host.Outcome.fault.inj h).symm, hb⟩
    · split at h
      · rename_i hb; exact ⟨.C, (Host.Outcome.fault.inj h).symm, hb⟩
      · cases h

/-- Everything a poll of `wait` can do: end the loop on an idle port; on a busy one, queue other agents' steps before the
next poll. -/
theorem waitPoll_cases (p : Port) (s : State) :
    (s.busy p = false ∧ waitPoll p s = { s with readData := s.status p }) ∨
    (s.busy p = true ∧ s.meanwhile = [] ∧ waitPoll p s =
      { s with readData := s.status p, agenda := .engine .P :: .engine .C :: .wait p :: s.agenda }) ∨
    (s.busy p = true ∧ ∃ e later, s.meanwhile = e :: later ∧ waitPoll p s =
      { s with readData := s.status p, meanwhile := later, agenda := e :: .wait p :: s.agenda }) := by
  unfold waitPoll
  cases hb : s.busy p with
  | false => exact .inl ⟨rfl, rfl⟩
  | true =>
    cases hm : s.meanwhile with
    | nil => exact .inr (.inl ⟨rfl, rfl, rfl⟩)
    | cons e later => exact .inr (.inr ⟨rfl, e, later, rfl, rfl⟩)

theorem csrAt_eq_some {off : CsrOffset} {c : Csr} (h : csrAt off = some c) : off = c.offset := by
  unfold csrAt at h
  split at h <;> simp only [Option.some.injEq, reduceCtorEq] at h <;>
    (subst h; rename_i hv; exact BitVec.eq_of_toNat_eq hv)

/-- Everything a step that goes on can do. -/
theorem step_cases (h : step s = .next t) :
    (∃ p w rest, s.agenda = .csrWrite .word (Csr.offset (.cmd p)) w :: rest ∧
      writeCmd p w { s with agenda := rest } = .next t) ∨
    (∃ p v rest e, s.agenda = e :: rest ∧ (t = State.setArg0 { s with agenda := rest } p v ∨
      t = State.setArg1 { s with agenda := rest } p v ∨ t = State.setArg2 { s with agenda := rest } p v)) ∨
    (∃ a v rest, s.agenda = .memWrite a v :: rest ∧ s.plat.inWindow a = false ∧
      t = State.writeByte { s with agenda := rest } a v) ∨
    (∃ p rest, EngineTurn p s rest ∧ engineStep p { s with agenda := rest } = some t) ∨
    (∃ rest, s.agenda = .reset :: rest ∧ t = hardwareReset { s with agenda := rest }) ∨
    (∃ ag mw d, (∀ e rest, s.agenda = e :: rest → e ≠ .reset) ∧
      t = { s with agenda := ag, meanwhile := mw, readData := d }) := by
  cases ha : s.agenda with
  | nil =>
    rw [step_nil ha] at h
    obtain ⟨p, hp⟩ | ⟨-, -, rfl⟩ := runOn_cases h
    · refine .inr (.inr (.inr (.inl ⟨p, [], .inr ⟨ha, rfl⟩, ?_⟩)))
      have : ({ s with agenda := [] } : State) = s := by rw [← ha]
      rwa [this]
    · exact .inr (.inr (.inr (.inr (.inr ⟨t.agenda, t.meanwhile, t.readData, by simp, rfl⟩))))
  | cons e rest =>
    rw [step_cons ha] at h
    cases e with
    | csrRead width off =>
      simp only [perform, hostCsrRead] at h
      split at h
      · exact .inr (.inr (.inr (.inr (.inr ⟨rest, s.meanwhile, _, by simp, (Host.Outcome.next.inj h).symm⟩))))
      · cases h
    | csrWrite width off v =>
      simp only [perform, hostCsrWrite] at h
      split at h
      · rename_i hadm
        obtain rfl : width = .word := by
          simp only [csrAccessAdmitted, Bool.and_eq_true, decide_eq_true_eq] at hadm
          exact hadm.1
        split at h
        · rename_i c hc
          obtain rfl := csrAt_eq_some hc
          cases c with
          | cmd p => exact .inl ⟨p, v, rest, rfl, h⟩
          | arg0 p => exact .inr (.inl ⟨p, v, rest, _, rfl, .inl (Host.Outcome.next.inj h).symm⟩)
          | arg1 p => exact .inr (.inl ⟨p, v, rest, _, rfl, .inr (.inl (Host.Outcome.next.inj h).symm)⟩)
          | arg2 p => exact .inr (.inl ⟨p, v, rest, _, rfl, .inr (.inr (Host.Outcome.next.inj h).symm)⟩)
          | result p => exact .inr (.inr (.inr (.inr (.inr ⟨rest, s.meanwhile, s.readData, by simp, (Host.Outcome.next.inj h).symm⟩))))
          | status p => exact .inr (.inr (.inr (.inr (.inr ⟨rest, s.meanwhile, s.readData, by simp, (Host.Outcome.next.inj h).symm⟩))))
          | wcur => exact .inr (.inr (.inr (.inr (.inr ⟨rest, s.meanwhile, s.readData, by simp, (Host.Outcome.next.inj h).symm⟩))))
          | rcur => exact .inr (.inr (.inr (.inr (.inr ⟨rest, s.meanwhile, s.readData, by simp, (Host.Outcome.next.inj h).symm⟩))))
        · exact .inr (.inr (.inr (.inr (.inr ⟨rest, s.meanwhile, s.readData, by simp, (Host.Outcome.next.inj h).symm⟩))))
      · cases h
    | memRead a =>
      simp only [perform, hostMemRead] at h
      split at h
      · cases h
      · exact .inr (.inr (.inr (.inr (.inr ⟨rest, s.meanwhile, _, by simp, (Host.Outcome.next.inj h).symm⟩))))
    | memWrite a v =>
      simp only [perform, hostMemWrite] at h
      split at h
      · cases h
      · rename_i hw
        exact .inr (.inr (.inl ⟨a, v, rest, rfl, by simpa using hw, (Host.Outcome.next.inj h).symm⟩))
    | wait p =>
      have ht := Host.Outcome.next.inj h
      obtain ⟨-, hw⟩ | ⟨-, -, hw⟩ | ⟨-, _, _, -, hw⟩ := waitPoll_cases p { s with agenda := rest } <;>
        exact .inr (.inr (.inr (.inr (.inr ⟨_, _, _, by simp, ht.symm.trans hw⟩))))
    | engine p =>
      have ht := Host.Outcome.next.inj h
      obtain he | ⟨-, he⟩ := engineTurn_cases p { s with agenda := rest }
      · exact .inr (.inr (.inr (.inl ⟨p, rest, .inl ha, by rw [he, ht]⟩)))
      · exact .inr (.inr (.inr (.inr (.inr ⟨rest, s.meanwhile, s.readData, by simp, ht.symm.trans he⟩))))
    | reset => exact .inr (.inr (.inr (.inr (.inl ⟨rest, rfl, (Host.Outcome.next.inj h).symm⟩))))

end Sys2Proof.Machine
end

