-- ==== Sys2Proof/Machine/HostAsm.lean ====
section
/-! DEFINITION. The host assembly of 30_encoding.md R99 and its pseudo-instructions R100, as lists of agents' steps. -/

namespace Sys2Proof.Machine

/-- `sw <csr>, <imm32>` (R99). -/
def asmSw (c : Csr) (v : Word) : Event := .csrWrite .word c.offset v

/-- `lw <csr> -> <name>` (R99). The value is in `readData`. -/
def asmLw (c : Csr) : Event := .csrRead .word c.offset

/-- `sb <addr>, <imm8>` (R99). -/
def asmSb (addr : Word) (v : Byte) : Event := .memWrite addr v

/-- `lb <addr> -> <name>` (R99). The value is in `readData`. -/
def asmLb (addr : Word) : Event := .memRead addr

/-- The bus write that issues a command: its word to its port's CMD register. -/
def asmIssue (i : Instr) : Event := asmSw (.cmd i.port) (encode i)

/-- `config.x base, L, E` (R100). -/
def asmConfig (p : Port) (base L E : Word) : List Event :=
  [asmSw (.arg0 p) base, asmSw (.arg1 p) L, asmSw (.arg2 p) E, asmIssue (.config p)]

/-- `enq src, len` (R100). -/
def asmEnq (src len : Word) : List Event :=
  [asmSw (.arg0 .P) src, asmSw (.arg1 .P) len, asmIssue (.enq .P)]

/-- `deq dst, len` (R100). -/
def asmDeq (dst len : Word) : List Event :=
  [asmSw (.arg0 .C) dst, asmSw (.arg1 .C) len, asmIssue (.deq .C)]

/-- `enqw src, len -> r` (R100). -/
def asmEnqw (src len : Word) : List Event := asmEnq src len ++ [.wait .P, asmLw (.result .P)]

/-- `deqw dst, len -> r` (R100). -/
def asmDeqw (dst len : Word) : List Event := asmDeq dst len ++ [.wait .C, asmLw (.result .C)]

/-- `clear.x` (R100). -/
def asmClear (p : Port) : List Event := [asmIssue (.clear p)]

/-- `qocc.x`, `qspace.x`, `qempty.x`, `qfull.x`, `qcap.x`, `qesize.x -> r` (R100), for the query `i`. -/
def asmQuery (i : Instr) : List Event := [asmIssue i, asmLw (.result i.port)]

/-- `status.x -> r` (R100). -/
def asmStatus (p : Port) : List Event := [asmLw (.status p)]

end Sys2Proof.Machine
end

