-- ==== Sys2Proof/Tests/Slice0.lean ====
section
/-! SUPPORT. The model's own tests. Expected results come from 95_test_vectors.md (named TC, TE, TD, TQ, TK, TI, TR, TS,
as there), from the encoding tables and from the rules. Last, for each statement with hypotheses, a witness that meets
them. -/

namespace Sys2Proof.Tests
open Sys2Proof Sys2Proof.Machine

/-! ### Small states -/

/-- A configured buffer at BASE = 0x1000, both ports at their reset values. `wIndex` is W - 1. -/
def ring (wIndex : Fin 32) (cap esize wc rc : Word) : State :=
  { State.reset with
    buf := { cfg := true, base := 0x1000, cap := cap, esize := esize, wc := wc, rc := rc },
    plat := { Config.thisHardware with wIndex := wIndex } }

/-- `s` with ARG0 to ARG2 of port `p` set. -/
def args (p : Port) (a b c : Word) (s : State) : State :=
  s.setPort p { s.port p with arg0 := a, arg1 := b, arg2 := c }

/-- `s` with the steps still to come. -/
def asked (ag : List Event) (s : State) : State := { s with agenda := ag }

/-- `s` on a platform that withholds these accesses. -/
def withholding (w : List (Word × AccessKind)) (s : State) : State := { s with plat := { s.plat with withheld := w } }

/-- The transfer of vector TE4: n = 4, off = 6, F = 2, source 0x2000. -/
def xferIn (k : Nat) : Xfer := { dir := .IN, ext := 0x2000, n := 4, B := 4, off := 6, F := 2, k := k }

/-- The transfer of vector TD3: n = 4, off = 6, F = 2, destination 0x3000. -/
def xferOut (k : Nat) : Xfer := { dir := .OUT, ext := 0x3000, n := 4, B := 4, off := 6, F := 2, k := k }

/-- TE4 in flight with `k` bytes copied, source bytes 1 to 4. -/
def enqAt (k : Nat) : State :=
  { (ring 31 8 1 6 2).setXfer .P (some (xferIn k)) with mem := [(0x2000, 1), (0x2001, 2), (0x2002, 3), (0x2003, 4)] }

/-- TD3 in flight with `k` bytes copied, ring bytes 1 to 4 at offsets 6, 7, 0, 1. -/
def deqAt (k : Nat) : State :=
  { (ring 31 8 1 10 6).setXfer .C (some (xferOut k)) with mem := [(0x1000, 3), (0x1001, 4), (0x1006, 1), (0x1007, 2)] }

/-- A DEQ of all four elements that TE4's ring holds. -/
def xferAll : Xfer := { dir := .OUT, ext := 0x3000, n := 4, B := 4, off := 2, F := 4, k := 0 }

/-- TE4 and that DEQ in flight together. -/
def bothAt : State := (enqAt 0).setXfer .C (some xferAll)

/-- The next state, if there is one. -/
def after (o : Host.Outcome State Fault Refusal) : Option State :=
  match o with
  | .next t => some t
  | .fault _ => none
  | .refused _ => none

/-- ERR and RESULT of port `p` in the next state. -/
def report (p : Port) (o : Host.Outcome State Fault Refusal) : Option (ErrCode × Word) :=
  (after o).map fun t => ((t.port p).err, (t.port p).result)

/-- The buffer in the next state. -/
def bufAfter (o : Host.Outcome State Fault Refusal) : Option Buffer := (after o).map State.buf

/-- `s` with a write of `w` to port `p`'s CMD register as its only step to come. -/
def cmdAt (p : Port) (w : Word) (s : State) : State := asked [asmSw (.cmd p) w] s

/-- The step that writes `w` to port `p`'s CMD register. -/
def command (p : Port) (w : Word) (s : State) : Host.Outcome State Fault Refusal := step (cmdAt p w s)

/-! ### Decoding: words written out bit by bit (RSVD 31:8, OPC 7:0) -/

theorem test_decode_config : decode .P 0b00000000_00000000_00000000_00000001 = .ok (.config .P) := by decide
theorem test_decode_enq : decode .P 0b00000000_00000000_00000000_00000010 = .ok (.enq .P) := by decide
theorem test_decode_deq : decode .C 0b00000000_00000000_00000000_00000011 = .ok (.deq .C) := by decide
theorem test_decode_clear : decode .C 0b00000000_00000000_00000000_00000100 = .ok (.clear .C) := by decide
theorem test_decode_qocc : decode .P 0b00000000_00000000_00000000_00010000 = .ok (.qocc .P) := by decide
theorem test_decode_qspace : decode .P 0b00000000_00000000_00000000_00010001 = .ok (.qspace .P) := by decide
theorem test_decode_qempty : decode .C 0b00000000_00000000_00000000_00010010 = .ok (.qempty .C) := by decide
theorem test_decode_qfull : decode .P 0b00000000_00000000_00000000_00010011 = .ok (.qfull .P) := by decide
theorem test_decode_qcap : decode .C 0b00000000_00000000_00000000_00010100 = .ok (.qcap .C) := by decide
theorem test_decode_qesize : decode .P 0b00000000_00000000_00000000_00010101 = .ok (.qesize .P) := by decide

/-- TI1 and the neighbours of each range of R95. -/
theorem test_decode_unknown :
    [0x00, 0x05, 0x0F, 0x16, 0xFF].map (decode .P) = List.replicate 5 (.error .unknownOpcode) := by decide

/-- TC18, TI2, TI3, TQ9: a reserved bit that is set. -/
theorem test_decode_reserved :
    [0x00000101, 0x00000102, 0x01000014, 0x80000010].map (decode .C) =
      List.replicate 4 (.error .reservedBits) := by decide

/-- R94: the port checks that make a command ill-formed. -/
theorem test_wellFormed_refuses : (Instr.enq .C).wellFormed = false ∧ (Instr.deq .P).wellFormed = false := by decide
theorem test_wellFormed_admits : (Instr.enq .P).wellFormed = true ∧ (Instr.deq .C).wellFormed = true ∧
    (Instr.config .C).wellFormed = true ∧ (Instr.clear .C).wellFormed = true := by decide

theorem test_tableWord : decodeTableWord 32 0x2 = some (.enq .P) ∧ decodeTableWord 32 0x3 = some (.deq .C) ∧
    decodeTableWord 32 0x102 = none := by decide

/-- Right after reset the table's words run as R96 says: CONFIG with E = 0 is ESIZE_ZERO, the rest NOT_CONFIGURED. -/
theorem test_fetch_config : report .P (step (State.reset.withFetchWord 32 0x1)) = some (.esizeZero, 0) := by decide
theorem test_fetch_deq : report .C (step (State.reset.withFetchWord 32 0x3)) = some (.notConfigured, 0) := by decide

/-! ### Commands -/

/-- TC2. -/
theorem test_config_ok : bufAfter (command .C 0x1 (args .C 0x1000 32 4 State.reset)) =
    some { cfg := true, base := 0x1000, cap := 8, esize := 4, wc := 0, rc := 0 } := by decide

/-- TC10: W = 1. -/
theorem test_config_too_large : report .P (command .P 0x1 (args .P 0x1000 2 1
    { State.reset with plat := { Config.thisHardware with wIndex := 0 } })) = some (.capTooLarge, 0) := by decide

/-- TE5: the cursors at 0xFFFFFFFE. -/
theorem test_enq_plan : (after (command .P 0x2 (args .P 0x2000 4 0 (ring 31 8 1 0xFFFFFFFE 0xFFFFFFFE)))).map
    (fun t => t.portP.xfer) = some (some (xferIn 0)) := by decide

/-- TE11. -/
theorem test_enq_wrong_port : report .C (command .C 0x2 (ring 31 8 1 0 0)) = some (.wrongPort, 0) := by decide

/-- TD4: CAP = 4, ESIZE = 3, the request truncated to what is available. -/
theorem test_deq_plan : (after (command .C 0x3 (args .C 0x3000 5 0 (ring 31 4 3 5 3)))).map (fun t => t.portC.xfer) =
    some (some { dir := .OUT, ext := 0x3000, n := 2, B := 6, off := 9, F := 3, k := 0 }) := by decide

/-- Section 4: WRONG_PORT comes before NOT_CONFIGURED. -/
theorem test_deq_wrong_port : report .P (command .P 0x3 State.reset) = some (.wrongPort, 0) := by decide

/-- TQ4: W = 4. -/
theorem test_qocc : report .P (command .P 0x10 (ring 3 8 1 2 10)) = some (.ok, 8) := by decide

/-- TQ8. -/
theorem test_qocc_not_configured : report .C (command .C 0x10 State.reset) = some (.notConfigured, 0) := by decide

/-- TQ1. -/
theorem test_qspace : report .P (command .P 0x11 (ring 31 8 1 5 3)) = some (.ok, 6) := by decide

/-- TQ3 and TQ1. -/
theorem test_qempty : report .P (command .P 0x12 (ring 31 8 1 0x12345678 0x12345678)) = some (.ok, 1) ∧
    report .P (command .P 0x12 (ring 31 8 1 5 3)) = some (.ok, 0) := by decide

/-- TQ2, and R184's example WC = 7, RC = 0. -/
theorem test_qfull : report .C (command .C 0x13 (ring 31 8 1 8 0)) = some (.ok, 1) ∧
    report .C (command .C 0x13 (ring 31 8 1 7 0)) = some (.ok, 0) := by decide

/-- TQ5. -/
theorem test_qcap : report .P (command .P 0x14 (ring 31 1 4 0 0)) = some (.ok, 1) := by decide
theorem test_qesize : report .C (command .C 0x15 (ring 31 1 4 0 0)) = some (.ok, 4) := by decide

/-- TK1. -/
theorem test_clear : bufAfter (command .P 0x4 (ring 31 8 1 13 10)) = some (ring 31 8 1 0 0).buf := by decide

/-- TK2. -/
theorem test_clear_other_busy : report .P (command .P 0x4 (deqAt 0)) = some (.otherBusy, 0) ∧
    bufAfter (command .P 0x4 (deqAt 0)) = some (deqAt 0).buf := by decide

/-- TE13: a word on a busy port only sets OVR. -/
theorem test_overrun : after (command .P 0x2 (enqAt 1)) = some ((enqAt 1).setOvr .P true) := by decide

/-- TE14: the next accepted word clears OVR. -/
theorem test_accept_clears_overrun :
    (after (command .P 0x14 ((ring 31 8 1 0 0).setOvr .P true))).map (fun t => t.portP.ovr) = some false := by decide

/-! ### Engines -/

/-- TE4: byte k = 2 is the first of the second leg, at offset 0. -/
theorem test_enq_copy : (after (step (asked [.engine .P] (enqAt 2)))).map
    (fun t => (t.readByte 0x1000, t.readByte 0x1008, t.portP.xfer)) = some (3, 0, some (xferIn 3)) := by decide

/-- TE10: W = 4, WC = 14, n = 4. -/
theorem test_enq_complete : (after (step (asked [.engine .P] ((ring 3 8 1 14 10).setXfer .P (some (xferIn 4)))))).map
    (fun t => (t.buf.wc, t.portP.result, t.busy .P)) = some (2, 4, false) := by decide

/-- TD7: a destination that runs past the top of memory: byte k = 2 goes to host address 0. -/
theorem test_deq_copy : (after (step (asked [.engine .C] { (ring 31 8 1 8 0).setXfer .C
    (some { dir := .OUT, ext := 0xFFFFFFFE, n := 4, B := 4, off := 0, F := 4, k := 2 }) with mem := [(0x1002, 9)] }))).map
    (fun t => t.readByte 0) = some 9 := by decide

/-- TD6: RC = 0xFFFFFFFE, n = 2. -/
theorem test_deq_complete : (after (step (asked [.engine .C] ((ring 31 8 1 2 0xFFFFFFFE).setXfer .C
    (some { dir := .OUT, ext := 0x3000, n := 2, B := 2, off := 6, F := 2, k := 2 }))))).map
    (fun t => (t.buf.rc, t.portC.result, t.occ)) = some (0, 2, 2) := by decide

/-! ### CSR window and reset -/

/-- TR1, TR3: unmapped offsets and CMD read 0. -/
theorem test_read_zero : ∀ off ∈ [(0x18 : CsrOffset), 0x3C, 0x48, 0x7C, 0x00, 0x20],
    csrValueAt ((ring 31 8 1 5 3).setResult .P 7) off = 0 := by decide

/-- TR2: ignored writes. -/
theorem test_write_ignored : ∀ off ∈ [(0x48 : CsrOffset), 0x10, 0x14, 0x40],
    after (step (asked [.csrWrite .word off 0x12345678] (ring 31 8 1 5 3))) = some (ring 31 8 1 5 3) := by decide

/-- TR4 and TR5. -/
theorem test_status : ((ring 31 8 1 0 0).setErr .P .capNotPow2).status .P = 0x64 ∧
    ((enqAt 0).setOvr .P true).status .P = 0x07 := by decide

/-- TR6. -/
theorem test_narrow_refused : step (asked [.csrRead .half 0x40] State.reset) = .refused .csrAccessForm ∧
    step (asked [.csrRead .word 0x42] State.reset) = .refused .csrAccessForm := ⟨rfl, rfl⟩

/-- TS1: reset in mid-transfer keeps memory and nothing else. -/
theorem test_reset : after (step (asked [.reset] (enqAt 3))) =
    some { State.reset with mem := (enqAt 3).mem } := by decide

/-- R68: the turn of a stuck engine changes nothing, and the machine goes on. -/
theorem test_stuck_turn_passes : after (step (asked [.engine .P] (withholding [(0x2000, .read)] (enqAt 0)))) =
    some (withholding [(0x2000, .read)] (enqAt 0)) := by decide

/-- R147: an idle engine has no step. -/
theorem test_idle_turn_passes : after (step (asked [.engine .C] (enqAt 0))) = some (enqAt 0) := by decide

/-- R226: with no host step to come and its engine without a step, a busy port is stuck. -/
theorem test_stuck : step (withholding [(0x2000, .read)] (enqAt 0)) = .fault (.engineStuck .P) := rfl

/-- R99, R262: a poll of a busy port, and what comes before the next one. -/
theorem test_wait_busy : after (step (asked [.wait .P] (enqAt 0))) =
    some { enqAt 0 with readData := 0x05, agenda := [.engine .P, .engine .C, .wait .P] } := by decide
theorem test_wait_meanwhile : after (step { asked [.wait .P] (enqAt 0) with meanwhile := [.reset] }) =
    some { enqAt 0 with readData := 0x05, agenda := [.reset, .wait .P] } := by decide

/-- R100's `config.p 0x1000, 8, 1` as the bus writes Program 1 lists for it. -/
theorem test_asm_config : asmConfig .P 0x1000 8 1 =
    [.csrWrite .word 0x04 0x1000, .csrWrite .word 0x08 8, .csrWrite .word 0x0C 1, .csrWrite .word 0x00 1] := by decide

/-! ### Witnesses: states and operands that meet each statement's hypotheses -/

theorem cmdAt_agenda (p : Port) (w : Word) (s : State) :
    (cmdAt p w s).agenda = .csrWrite .word (Csr.offset (.cmd p)) w :: [] := rfl

theorem next_cmdAt (p : Port) (w : Word) (s : State) : NextIsCommand p w (cmdAt p w s) := ⟨[], rfl⟩

/-- A word the decoder rejects is no command. -/
theorem no_command {p : Port} {w : Word} {r : DecodeReject} (h : decode p w = .error r) :
    ¬ ∃ i, decode p w = .ok i := fun ⟨i, hi⟩ => by rw [h] at hi; cases hi

theorem not_pow2 {n : Nat} (h : isPow2 n = false) : ¬ ∃ k, n = 2 ^ k := by
  rw [← isPow2_iff, h]; decide

/-- The invariant does not look at the steps still to come. -/
theorem inv_asked {s : State} (h : Inv s) (ag : List Event) : Inv (asked ag s) where
  mem_wf := h.mem_wf
  wc_lt := h.wc_lt
  rc_lt := h.rc_lt
  idle := h.idle
  configured hc := ⟨(h.configured hc).1, (h.configured hc).2, (h.configured hc).3, (h.configured hc).4,
    (h.configured hc).5⟩
  enq := h.enq
  deq := h.deq

/-- A full ring of one-byte elements, idle (vector TQ2). -/
theorem inv_full : Inv (ring 31 8 1 8 0) where
  mem_wf := by decide
  wc_lt := by decide
  rc_lt := by decide
  idle := by decide
  configured _ := ⟨by decide, by decide, by decide, by decide, by decide⟩
  enq := fun x h => by cases h
  deq := fun x h => by cases h

theorem inv_empty : Inv (args .P 0x2000 10 0 (ring 31 8 1 0 0)) where
  mem_wf := by decide
  wc_lt := by decide
  rc_lt := by decide
  idle := by decide
  configured _ := ⟨by decide, by decide, by decide, by decide, by decide⟩
  enq := fun x h => by cases h
  deq := fun x h => by cases h

theorem inv_enqAt : Inv (enqAt 0) where
  mem_wf := by decide
  wc_lt := by decide
  rc_lt := by decide
  idle := by decide
  configured _ := ⟨by decide, by decide, by decide, by decide, by decide⟩
  enq := fun x h => by cases h; exact ⟨⟨rfl, rfl, by decide, by decide, by decide⟩, by decide, rfl⟩
  deq := fun x h => by cases h

theorem inv_deqAt : Inv (deqAt 0) where
  mem_wf := by decide
  wc_lt := by decide
  rc_lt := by decide
  idle := by decide
  configured _ := ⟨by decide, by decide, by decide, by decide, by decide⟩
  enq := fun x h => by cases h
  deq := fun x h => by cases h; exact ⟨⟨rfl, rfl, by decide, by decide, by decide⟩, by decide, rfl⟩

theorem inv_stuck : Inv (withholding [(0x2000, .read)] (enqAt 0)) where
  mem_wf := by decide
  wc_lt := by decide
  rc_lt := by decide
  idle := by decide
  configured _ := ⟨by decide, by decide, by decide, by decide, by decide⟩
  enq := fun x h => by cases h; exact ⟨⟨rfl, rfl, by decide, by decide, by decide⟩, by decide, rfl⟩
  deq := fun x h => by cases h

theorem inv_bothStuck : Inv (withholding [(0x2000, .read)] bothAt) where
  mem_wf := by decide
  wc_lt := by decide
  rc_lt := by decide
  idle := by decide
  configured _ := ⟨by decide, by decide, by decide, by decide, by decide⟩
  enq := fun x h => by cases h; exact ⟨⟨rfl, rfl, by decide, by decide, by decide⟩, by decide, rfl⟩
  deq := fun x h => by cases h; exact ⟨⟨rfl, rfl, by decide, by decide, by decide⟩, by decide, rfl⟩

/-- A run from power-up of `n` steps on this hardware's platform. -/
theorem reachable_of_run {ag : List Event} {n : Nat} {s : State}
    (h : core.run n (powerUp Config.thisHardware [] ag []) = .next s) : Reachable s :=
  ⟨Config.thisHardware, [], ag, [], n, by decide, h⟩

theorem witness_DecodeAndEncodeAgree : decode .C 0x00000003 = .ok (.deq .C) := by decide

theorem witness_IllegalWordsReportIllegal :
    (cmdAt .C 0x00000102 State.reset).agenda = .csrWrite .word (Csr.offset (.cmd .C)) 0x00000102 :: [] ∧
    (cmdAt .C 0x00000102 State.reset).busy .C = false ∧ ¬ ∃ i, decode .C 0x00000102 = .ok i :=
  ⟨rfl, rfl, no_command (r := .reservedBits) (by decide)⟩

theorem witness_StepRunsTheDecodedCommand : decode .P 0x00000002 = .ok (.enq .P) ∧
    (cmdAt .P 0x00000002 (ring 31 8 1 0 0)).agenda = .csrWrite .word (Csr.offset (.cmd .P)) 0x00000002 :: [] :=
  ⟨by decide, rfl⟩

theorem witness_OverrunDropsAndSticks :
    (cmdAt .P 0x00000105 (enqAt 1)).busy .P = true ∧
    (cmdAt .P 0x00000105 State.reset).busy .P = false ∧
    (∃ t, step (cmdAt .P 0x14 ((ring 31 8 1 0 0).setOvr .P true)) = .next t ∧
      (cmdAt .P 0x14 ((ring 31 8 1 0 0).setOvr .P true)).portP.ovr = true ∧ (t.port .P).ovr = false) ∧
    ∃ t, step (asked [.reset] ((enqAt 0).setOvr .P true)) = .next t ∧ (t.port .P).ovr = false :=
  ⟨rfl, rfl, ⟨_, rfl, rfl, rfl⟩, ⟨_, rfl, rfl⟩⟩

/-- A word of each outcome: dropped, failed, performed. -/
theorem witness_EveryCommandWordHasOneOutcome :
    (cmdAt .P 0x2 (enqAt 0)).busy .P = true ∧ report .P (command .P 0x0 (ring 31 8 1 0 0)) = some (.illegal, 0) ∧
    report .P (command .P 0x14 (ring 31 8 1 0 0)) = some (.ok, 8) := by decide

theorem witness_FailedCommandChangesOnlyItsReport : ∃ t, exec (.qocc .P) State.reset = .next t ∧
    State.reset.busy (Instr.qocc .P).port = false ∧ (t.port (Instr.qocc .P).port).err ≠ .ok := ⟨_, rfl, rfl, by decide⟩

/-- One state for each clause of ErrorsComeInPriorityOrder, each with a later cause present too where one can be. -/
theorem witness_ErrorsComeInPriorityOrder :
    (cmdAt .P 0x0 (enqAt 0)).busy .P = true ∧
    ((cmdAt .C 0x102 State.reset).busy .C = false ∧ ¬ ∃ i, decode .C 0x102 = .ok i) ∧
    State.reset.busy .C = false ∧ State.reset.buf.cfg = false ∧ (Instr.clear .P).wellFormed = true ∧
    ((deqAt 0).buf.cfg = true ∧ (deqAt 0).busy .P = false ∧ (deqAt 0).busy (Port.other .P) = true) ∧
    ((deqAt 0).portP.arg2.toNat = 0) ∧
    ((args .P 0x1000 10 0 State.reset).portP.arg2.toNat = 0) ∧
    (¬ ∃ k, (args .P 0x1000 10 1 State.reset).portP.arg1.toNat / 1 = 2 ^ k) ∧
    ((∃ k, 2 / 1 = 2 ^ k) ∧ 2 ^ ((ring 0 1 1 0 0).plat.W - 1) < 2 / 1) :=
  ⟨rfl, ⟨rfl, no_command (r := .reservedBits) (by decide)⟩, rfl, rfl, rfl, ⟨rfl, rfl, rfl⟩, rfl, rfl,
    not_pow2 (by decide), ⟨1, rfl⟩, by decide⟩

theorem witness_CommandFrame : ∃ t, exec (.enq .P) (args .P 0x2000 4 0 (ring 31 8 1 6 2)) = .next t ∧
    (t.port .P).err = .ok := ⟨_, rfl, rfl⟩

/-- Operands at the edge of each clause of ConfigFollowsItsPseudocode: TC17, TC14, TC5, TC10, TC9, TC11. -/
theorem witness_ConfigFollowsItsPseudocode :
    ((enqAt 0).busy .C = false ∧ (enqAt 0).busy (Port.other .C) = true) ∧
    ((args .P 0x1000 10 0 State.reset).busy .P = false ∧
      (args .P 0x1000 10 0 State.reset).busy (Port.other .P) = false) ∧
    (¬ ∃ k, 3 / 4 = 2 ^ k) ∧
    ((∃ k, 2 / 1 = 2 ^ k) ∧ 2 ^ ((ring 0 1 1 0 0).plat.W - 1) < 2 / 1) ∧
    ((∃ k, 1 / 1 = 2 ^ k) ∧ 1 / 1 ≤ 2 ^ ((ring 0 1 1 0 0).plat.W - 1)) ∧
    ((∃ k, (0x80000000 : Word).toNat / 1 = 2 ^ k) ∧ (0x80000000 : Word).toNat / 1 ≤ 2 ^ (State.reset.plat.W - 1)) :=
  ⟨⟨rfl, rfl⟩, ⟨rfl, rfl⟩, not_pow2 (by decide), ⟨⟨1, rfl⟩, by decide⟩, ⟨⟨0, rfl⟩, by decide⟩, ⟨31, rfl⟩, by decide⟩

theorem witness_CapacityIsNeverTooLargeAtW32 : ∃ t, State.reset.plat.W = 32 ∧ State.reset.busy .P = false ∧
    exec (.config .P) (args .P 0x1000 0xFFFFFFFF 1 State.reset) = .next t := ⟨_, rfl, rfl, rfl⟩

theorem witness_BackingStoreIsWholeElements : ∃ t, State.reset.busy .P = false ∧
    exec (.config .P) (args .P 0 9 2 State.reset) = .next t ∧ (t.port .P).err = .ok := ⟨_, rfl, rfl, rfl⟩

/-- A ring with room and a full one (TE2), on an idle port. -/
theorem witness_EnqLatchesItsTransfer : (ring 31 8 1 6 2).busy .P = false ∧ (ring 31 8 1 6 2).buf.cfg = true ∧
    (ring 31 8 1 6 2).occ ≤ 8 ∧ (ring 31 8 1 8 0).occ = 8 ∧ (ring 31 8 1 8 0).busy .C = false := by decide

theorem witness_DeqLatchesItsTransfer : (ring 31 8 1 10 6).busy .C = false ∧ (ring 31 8 1 10 6).buf.cfg = true ∧
    (ring 31 8 1 10 6).busy .P = false := by decide

/-- A state that meets the hypotheses of every query statement (QoccReturnsTheOccupancy, QcapReturnsTheCapacity,
QesizeReturnsTheElementSize and the three below), the invariant among them, on both ports. -/
theorem witness_Queries : (ring 31 8 1 8 0).busy .P = false ∧ (ring 31 8 1 8 0).busy .C = false ∧
    (ring 31 8 1 8 0).buf.cfg = true ∧ Inv (ring 31 8 1 8 0) := ⟨rfl, rfl, rfl, inv_full⟩

theorem witness_QspaceReturnsTheFreeSpace : (ring 31 8 1 8 0).busy .P = false ∧ (ring 31 8 1 8 0).buf.cfg = true ∧
    (ring 31 8 1 8 0).occ ≤ (ring 31 8 1 8 0).buf.cap.toNat := by decide

theorem witness_QemptyComparesTheCursors : (ring 31 8 1 5 5).buf.wc = (ring 31 8 1 5 5).buf.rc ∧
    (ring 31 8 1 8 0).buf.wc ≠ (ring 31 8 1 8 0).buf.rc := by decide

theorem witness_QfullComparesWithCapacity : (ring 31 8 1 8 0).occ = (ring 31 8 1 8 0).buf.cap.toNat ∧
    (ring 31 8 1 7 0).occ ≠ (ring 31 8 1 7 0).buf.cap.toNat := by decide

theorem witness_ClearZeroesTheCursors : State.reset.busy .P = false ∧ State.reset.buf.cfg = false ∧
    ((ring 31 8 1 5 3).busy .P = false ∧ (ring 31 8 1 5 3).buf.cfg = true ∧ (ring 31 8 1 5 3).busy .C = false) ∧
    ((deqAt 0).busy .P = false ∧ (deqAt 0).buf.cfg = true ∧ (deqAt 0).busy (Port.other .P) = true) := by decide

theorem witness_QueriesAreIdempotent : ∃ t u, exec (.qspace .C) (ring 31 8 1 5 3) = .next t ∧
    exec (.qspace .C) t = .next u := ⟨_, _, rfl, rfl⟩

theorem witness_EmptyAndFullExcludeEachOther : ∃ s t u, Reachable s ∧ s.buf.cfg = true ∧ s.busy .P = false ∧
    s.busy .C = false ∧ exec (.qempty .P) s = .next t ∧ exec (.qfull .C) s = .next u :=
  ⟨_, _, _, reachable_of_run (ag := asmConfig .P 0x1000 8 1) (n := 4) rfl, rfl, rfl, rfl, rfl, rfl⟩

/-- The first byte, and the first byte of the second leg. -/
theorem witness_EnqCopyStepMovesOneByte : ∀ k ∈ [0, 2],
    (enqAt k).portP.xfer = some (xferIn k) ∧ (xferIn k).dir = .IN ∧ k < (xferIn k).B ∧
    (asked [.engine .P] (enqAt k)).agenda = .engine .P :: [] ∧
    (enqAt k).plat.memAdmit (0x2000 + BitVec.ofNat 32 k) .read = true ∧
    (enqAt k).plat.memAdmit (storeAddr (enqAt k) (xferIn k)) .write = true := by decide

theorem witness_EnqCompletionPublishesTheCursor :
    (asked [.engine .P] (enqAt 4)).agenda = .engine .P :: [] ∧ (enqAt 4).portP.xfer = some (xferIn 4) ∧
    (xferIn 4).dir = .IN ∧ (xferIn 4).k = (xferIn 4).B := by decide

theorem witness_DeqCopyStepMovesOneByte : ∀ k ∈ [0, 2],
    (deqAt k).portC.xfer = some (xferOut k) ∧ (xferOut k).dir = .OUT ∧ k < (xferOut k).B ∧
    (asked [.engine .C] (deqAt k)).agenda = .engine .C :: [] ∧
    (deqAt k).plat.memAdmit (storeAddr (deqAt k) (xferOut k)) .read = true ∧
    (deqAt k).plat.memAdmit (0x3000 + BitVec.ofNat 32 k) .write = true := by decide

theorem witness_DeqCompletionFreesTheSpace :
    (asked [.engine .C] (deqAt 4)).agenda = .engine .C :: [] ∧ (deqAt 4).portC.xfer = some (xferOut 4) ∧
    (xferOut 4).dir = .OUT ∧ (xferOut 4).k = (xferOut 4).B := by decide

/-- Each access of each engine withheld; then a stuck engine's turn, a machine that goes on, and one that is reset. -/
theorem witness_WithheldAccessSticksUntilReset :
    (withholding [(0x2000, .read)] (enqAt 0)).plat.memAdmit (externalAddr (xferIn 0)) .read = false ∧
    (withholding [(0x1006, .write)] (enqAt 0)).plat.memAdmit (storeAddr (enqAt 0) (xferIn 0)) .write = false ∧
    (withholding [(0x1006, .read)] (deqAt 0)).plat.memAdmit (storeAddr (deqAt 0) (xferOut 0)) .read = false ∧
    (withholding [(0x3000, .write)] (deqAt 0)).plat.memAdmit (externalAddr (xferOut 0)) .write = false ∧
    Stuck .P (asked [.engine .P] (withholding [(0x2000, .read)] (enqAt 0))) ∧
    (∃ t, step (cmdAt .P 0x2 (withholding [(0x2000, .read)] (enqAt 0))) = .next t) ∧
    ∃ t, step (asked [.reset] (withholding [(0x2000, .read)] (enqAt 0))) = .next t :=
  ⟨by decide, by decide, by decide, by decide, ⟨rfl, rfl⟩, ⟨_, rfl⟩, ⟨_, rfl⟩⟩

theorem witness_EngineHasAStepExactlyWhileBusy : Inv (enqAt 0) ∧ (∀ a k, (enqAt 0).plat.memAdmit a k = true) ∧
    (enqAt 0).busy .P = true ∧ (enqAt 0).busy .C = false := ⟨inv_enqAt, fun _ _ => rfl, rfl, rfl⟩

theorem witness_TransferTakesItsCopyStepsAndOneMore :
    let s := asked (List.replicate 5 (.engine .P) ++ []) (enqAt 0)
    Inv s ∧ (s.port .P).xfer = some (xferIn 0) ∧ (∀ a k, s.plat.memAdmit a k = true) ∧
    s.agenda = List.replicate ((xferIn 0).B - (xferIn 0).k + 1) (.engine .P) ++ [] :=
  ⟨inv_asked inv_enqAt _, rfl, fun _ _ => rfl, rfl⟩

theorem apart_slots (ext base : Word) (h : ∀ i ∈ List.range 4, ∀ j ∈ List.range 8, addrAdd ext i ≠ addrAdd base j)
    {i j : Nat} (hi : i < 4) : addrAdd ext i ≠ addrAdd base (j % 8) :=
  h i (List.mem_range.2 hi) (j % 8) (List.mem_range.2 (Nat.mod_lt _ (by decide)))

theorem witness_EnqStoresTheSourceInRingOrder :
    let s := asked (List.replicate 5 (.engine .P) ++ []) (enqAt 0)
    Inv s ∧ s.portP.xfer = some (xferIn 0) ∧ (xferIn 0).k = 0 ∧ (∀ a k, s.plat.memAdmit a k = true) ∧
    s.agenda = List.replicate ((xferIn 0).B + 1) (.engine .P) ++ [] ∧
    ∀ i j, i < (xferIn 0).B → j < (xferIn 0).B → addrAdd (xferIn 0).ext i ≠
      s.backingAddr ((s.buf.wc.toNat % s.buf.cap.toNat * s.buf.esize.toNat + j) % s.buf.capBytes) :=
  ⟨inv_asked inv_enqAt _, rfl, rfl, fun _ _ => rfl, rfl, fun _ _ hi _ => apart_slots _ _ (by decide) hi⟩

theorem witness_DeqDeliversInRingOrder :
    let s := asked (List.replicate 5 (.engine .C) ++ []) (deqAt 0)
    Inv s ∧ s.portC.xfer = some (xferOut 0) ∧ (xferOut 0).k = 0 ∧ (∀ a k, s.plat.memAdmit a k = true) ∧
    s.agenda = List.replicate ((xferOut 0).B + 1) (.engine .C) ++ [] ∧
    ∀ i j, i < (xferOut 0).B → j < (xferOut 0).B → addrAdd (xferOut 0).ext i ≠
      s.backingAddr ((s.buf.rc.toNat % s.buf.cap.toNat * s.buf.esize.toNat + j) % s.buf.capBytes) :=
  ⟨inv_asked inv_deqAt _, rfl, rfl, fun _ _ => rfl, rfl, fun _ _ hi _ => apart_slots _ _ (by decide) hi⟩

theorem witness_TruncatedEnqFillsTheBuffer :
    let s := asked (.csrWrite .word (Csr.offset (.cmd .P)) 0x00000002 :: List.replicate 9 (.engine .P) ++ [])
      (args .P 0x2000 10 0 (ring 31 8 1 0 0))
    Inv s ∧ s.buf.cfg = true ∧ s.busy .P = false ∧ (∀ a k, s.plat.memAdmit a k = true) ∧
    s.free < s.portP.arg1.toNat ∧ s.agenda = .csrWrite .word (Csr.offset (.cmd .P)) 0x00000002 ::
      List.replicate (s.free * s.buf.esize.toNat + 1) (.engine .P) ++ [] :=
  ⟨inv_asked inv_empty _, rfl, rfl, fun _ _ => rfl, by decide, rfl⟩

theorem witness_EnginesFinishOnTheirOwn : Inv (enqAt 0) ∧ (enqAt 0).agenda = [] ∧
    (∀ a k, (enqAt 0).plat.memAdmit a k = true) ∧ (enqAt 0).busy .P = true := ⟨inv_enqAt, rfl, fun _ _ => rfl, rfl⟩

theorem witness_WaitEndsWithThePortIdle : Inv (asked [.wait .P] (enqAt 0)) ∧
    (∀ a k, (asked [.wait .P] (enqAt 0)).plat.memAdmit a k = true) ∧
    (asked [.wait .P] (enqAt 0)).agenda = .wait .P :: [] ∧ (asked [.wait .P] (enqAt 0)).meanwhile = [] :=
  ⟨inv_asked inv_enqAt _, fun _ _ => rfl, rfl, rfl⟩

/-- Both ports busy and P stuck on its first source byte, with and without a reset among the steps meanwhile. -/
theorem witness_WaitOnAStuckPortHangsUntilReset :
    let s := asked [.wait .P] (withholding [(0x2000, .read)] bothAt)
    s.agenda = .wait .P :: [] ∧ Stuck .P s ∧ s.meanwhile = [] ∧ Inv s ∧ (s.port (Port.other .P)).xfer = some xferAll ∧
    (∀ k kind, xferAll.k ≤ k → k < xferAll.B → s.plat.memAdmit (addrAdd xferAll.ext k) kind = true ∧
      s.plat.memAdmit (s.backingAddr (backingOffset xferAll k)) kind = true) ∧
    Stuck .P { s with meanwhile := [.reset] } := by
  refine ⟨rfl, ⟨rfl, rfl⟩, rfl, inv_asked inv_bothStuck _, rfl, fun k kind _ hk => ?_, rfl, rfl⟩
  obtain rfl | rfl | rfl | rfl : k = 0 ∨ k = 1 ∨ k = 2 ∨ k = 3 := by
    have : k < 4 := hk
    omega
  all_goals cases kind <;> decide

/-- The first and the last word of the window. -/
theorem witness_CsrReadsFollowTheMap : ∀ off ∈ [(0x00 : CsrOffset), 0x7C],
    (asked [.csrRead .word off] State.reset).agenda = .csrRead .word off :: [] ∧ off.toNat % 4 = 0 := by decide

theorem witness_CsrWritesFollowTheMap : ∀ off ∈ [(0x04 : CsrOffset), 0x2C, 0x7C],
    (asked [.csrWrite .word off 7] State.reset).agenda = .csrWrite .word off 7 :: [] ∧ off.toNat % 4 = 0 ∧
    off ≠ 0x00 ∧ off ≠ 0x20 := by decide

theorem witness_OtherCsrAccessesAreRefused :
    ¬ (Width.half = .word ∧ (0x40 : CsrOffset).toNat % 4 = 0) ∧
    ¬ (Width.word = .word ∧ (0x42 : CsrOffset).toNat % 4 = 0) ∧
    (asked [.memRead (State.reset.plat.csrBase + (0x7F : CsrOffset).setWidth 32)] State.reset).agenda =
      .memRead (State.reset.plat.csrBase + (0x7F : CsrOffset).setWidth 32) :: [] := by decide

/-- The bytes next to the window, on either side. -/
theorem witness_HostByteAccesses : 0x80 ≤ ((0x3FFFFFFF : Word) - State.reset.plat.csrBase).toNat ∧
    0x80 ≤ ((0x40000080 : Word) - State.reset.plat.csrBase).toNat ∧
    (asked [.memWrite 0x40000080 5] State.reset).agenda = .memWrite 0x40000080 5 :: [] := ⟨by decide, by decide, rfl⟩

theorem witness_HardwareResetZeroesTheBlock : (asked [.reset] (enqAt 3)).agenda = .reset :: [] := rfl

theorem witness_IdleBlockHoldsItsState : (ring 31 8 1 5 3).agenda = [] ∧ (ring 31 8 1 5 3).busy .P = false ∧
    (ring 31 8 1 5 3).busy .C = false := by decide

theorem witness_CfgChangesOnlyByConfigOrReset :
    (∃ t, step (cmdAt .P 0x1 (args .P 0x1000 8 1 State.reset)) = .next t ∧ t.buf.cfg ≠ State.reset.buf.cfg) ∧
    ∃ t, step (asked [.reset] (enqAt 0)) = .next t ∧ t.buf.cfg ≠ (enqAt 0).buf.cfg :=
  ⟨⟨_, rfl, by decide⟩, ⟨_, rfl, by decide⟩⟩

/-- A step of each kind that ConfigurationChangesOnlyByConfigOrReset, CursorsChangeOnlyByTheirWrites and
PlatformNeverChanges tell apart. -/
theorem witness_StepsThatChangeTheBuffer :
    (∃ t, step (cmdAt .P 0x1 (args .P 0x4000 16 2 (ring 31 8 1 5 3))) = .next t ∧ t.buf.base = 0x4000) ∧
    (∃ t, step (asked [.engine .P] (enqAt 4)) = .next t ∧ t.buf.wc = 10) ∧
    (∃ t, step (asked [.engine .C] (deqAt 4)) = .next t ∧ t.buf.rc = 10) ∧
    (∃ t, step (cmdAt .P 0x4 (ring 31 8 1 13 10)) = .next t ∧ t.buf.wc = 0) ∧
    ∃ t, step (asked [.reset] (ring 31 8 1 13 10)) = .next t ∧ t.buf.cap = 0 :=
  ⟨⟨_, rfl, rfl⟩, ⟨_, rfl, rfl⟩, ⟨_, rfl, rfl⟩, ⟨_, rfl, rfl⟩, ⟨_, rfl, rfl⟩⟩

theorem witness_OnlyStuckEnginesFault : Inv (withholding [(0x2000, .read)] (enqAt 0)) ∧
    step (withholding [(0x2000, .read)] (enqAt 0)) = .fault (.engineStuck .P) := ⟨inv_stuck, rfl⟩

/-- CONFIG, and an ENQ of two elements in flight. -/
theorem witness_NoErrorWhileATransferRuns : (∃ s, Reachable s ∧ s.busy .P = true) ∧
    ∃ t, engineStep .P (enqAt 0) = some t :=
  ⟨⟨_, reachable_of_run (ag := asmConfig .P 0x1000 8 1 ++ asmEnq 0x2000 2) (n := 7) rfl, rfl⟩, ⟨_, rfl⟩⟩

/-- TE10's cursor and, at the edge, CAP = 2^(W-1). -/
theorem witness_WrappedCursorNamesTheRightSlot :
    (∃ k, 8 = 2 ^ k) ∧ 8 ≤ 2 ^ ((ring 3 8 1 14 10).plat.W - 1) ∧ (14 : Word).toNat < 2 ^ (ring 3 8 1 14 10).plat.W :=
  ⟨⟨3, rfl⟩, by decide, by decide⟩

theorem witness_PlanSplitsAtThePhysicalEnd : (∃ k, (ring 31 8 1 6 2).buf.cap.toNat = 2 ^ k) ∧
    1 ≤ (ring 31 8 1 6 2).buf.esize.toNat ∧ 8 ≤ (ring 31 8 1 6 2).buf.cap.toNat := ⟨⟨3, rfl⟩, by decide, by decide⟩

theorem witness_ControllerInvariantIsKept : ∃ t, Inv (enqAt 0) ∧ step (enqAt 0) = .next t := ⟨_, inv_enqAt, rfl⟩

theorem witness_PowerUpMeetsTheInvariant : Memory.wf [(0x2000, 1), (0xFFFFFFFF, 2)] := by decide

theorem witness_OccupancyNeverExceedsCapacity : ∃ s, Reachable s ∧ s.buf.cfg = true ∧ s.occ = 2 :=
  ⟨_, reachable_of_run (ag := asmConfig .P 0x1000 8 1 ++ asmEnq 0x2000 2 ++ List.replicate 3 (.engine .P)) (n := 10) rfl,
    rfl, by decide⟩

theorem witness_ConfiguredBufferIsLegal : ∃ s, Reachable s ∧ s.buf.cfg = true :=
  ⟨_, reachable_of_run (ag := asmConfig .P 0x1000 8 1) (n := 4) rfl, rfl⟩

theorem witness_ConcurrentTransfersAreDisjoint : ∃ s x y, Reachable s ∧ s.portP.xfer = some x ∧
    s.portC.xfer = some y ∧ 0 < x.B ∧ 0 < y.B :=
  ⟨_, _, _, reachable_of_run (ag := asmConfig .P 0x1000 8 1 ++ asmEnq 0x2000 2 ++ List.replicate 3 (.engine .P) ++
    [asmIssue (.enq .P)] ++ asmDeq 0x3000 2) (n := 14) rfl, rfl, rfl, by decide, by decide⟩

/-- A step whose event is an engine's turn or a command other than CONFIG and CLEAR is clean while no DEQ is in flight. -/
theorem clean_of_event {s : State} {e : Event} {rest : List Event} (h : s.agenda = e :: rest)
    (he : (∃ p, e = .engine p) ∨ ∃ p, e = asmIssue (.enq p) ∨ e = asmIssue (.deq p))
    (hx : ∀ x, s.portC.xfer = some x → x.k < x.B → ¬ InStore s (externalAddr x)) : CleanStep s where
  no_reset rest' h' := by
    rw [h] at h'; obtain ⟨p, rfl⟩ | ⟨p, rfl | rfl⟩ := he <;> cases h'
  no_config p h' := by
    obtain ⟨r, h'⟩ := h'
    rw [h] at h'; obtain ⟨q, rfl⟩ | ⟨q, rfl | rfl⟩ := he
    · cases h'
    · exact absurd (Event.csrWrite.inj (List.cons.inj h').1).2.2 (by cases q <;> decide)
    · exact absurd (Event.csrWrite.inj (List.cons.inj h').1).2.2 (by cases q <;> decide)
  no_clear p h' := by
    obtain ⟨r, h'⟩ := h'
    rw [h] at h'; obtain ⟨q, rfl⟩ | ⟨q, rfl | rfl⟩ := he
    · cases h'
    · exact absurd (Event.csrWrite.inj (List.cons.inj h').1).2.2 (by cases q <;> decide)
    · exact absurd (Event.csrWrite.inj (List.cons.inj h').1).2.2 (by cases q <;> decide)
  no_poke a v r h' := by
    rw [h] at h'; obtain ⟨p, rfl⟩ | ⟨p, rfl | rfl⟩ := he <;> cases h'
  dst_apart := hx

/-- ARG registers for one element each way, and the steps of one ENQ and the issue and copy of one DEQ. -/
def oneEach : State :=
  asked [asmIssue (.enq .P), .engine .P, .engine .P, asmIssue (.deq .C), .engine .C]
    { args .P 0x2000 1 0 (args .C 0x3000 1 0 (ring 31 8 1 0 0)) with mem := [(0x2000, 7)] }

theorem inv_oneEach : Inv oneEach where
  mem_wf := by decide
  wc_lt := by decide
  rc_lt := by decide
  idle := by decide
  configured _ := ⟨by decide, by decide, by decide, by decide, by decide⟩
  enq := fun x h => by cases h
  deq := fun x h => by cases h

/-- One byte goes in and comes out. -/
theorem witness_FifoOrderIsConserved : ∃ t, Inv oneEach ∧ oneEach.buf.cfg = true ∧ oneEach.buf.wc = 0 ∧
    oneEach.buf.rc = 0 ∧ oneEach.busy .P = false ∧ oneEach.busy .C = false ∧ CleanRun oneEach [7] [7] t := by
  have s1 := CleanRun.next (CleanRun.start (s := oneEach))
    (clean_of_event rfl (.inr ⟨.P, .inl rfl⟩) fun x h => by cases h) rfl
  have s2 := s1.next (clean_of_event rfl (.inl ⟨.P, rfl⟩) fun x h => by cases h) rfl
  have s3 := s2.next (clean_of_event rfl (.inl ⟨.P, rfl⟩) fun x h => by cases h) rfl
  have s4 := s3.next (clean_of_event rfl (.inr ⟨.C, .inr rfl⟩) fun x h => by cases h) rfl
  have s5 := s4.next (clean_of_event rfl (.inl ⟨.C, rfl⟩) fun x h hk => by
    cases h
    rintro ⟨j, hj, hj'⟩
    have : ∀ j ∈ List.range 8, (0x3000 : Word) ≠ addrAdd 0x1000 j := by decide
    exact this j (List.mem_range.2 hj) hj') rfl
  exact ⟨_, inv_oneEach, rfl, rfl, rfl, rfl, rfl, s5⟩

end Sys2Proof.Tests
end

section
namespace Sys2Proof.Machine

/-! ### How a command on an idle port ends (00_scope.md R14) -/

variable {i : Instr} {s t : State}

/-- A port is idle after any update of its registers that leaves its transfer record absent. -/
theorem busy_setPort_same {p : Port} {r : PortRegs} (h : r.xfer = none) : (s.setPort p r).busy p = false := by
  rw [busy_eq_false_iff, port_setPort_same, h]

/-- On an idle port a command either fails, which changes its port's report alone, or ends with ERR = OK. -/
theorem exec_idle_failed_or_ok (h : exec i s = .next t) (hidle : s.busy i.port = false) :
    (∃ code, code ≠ ErrCode.ok ∧
      t = s.setPort i.port { s.port i.port with ovr := false, err := code, result := 0 }) ∨
    (t.port i.port).err = .ok := by
  obtain ⟨hbusy, -⟩ | ⟨-, hfailed⟩ | ⟨-, hdone⟩ := exec_cases h
  · rw [hidle] at hbusy
    cases hbusy
  · exact .inl hfailed
  · right
    obtain ⟨p, rfl, -, -, -, -, rfl⟩ | ⟨rfl, -, rfl⟩ | ⟨rfl, -, rfl⟩ | ⟨p, rfl, -, -, rfl⟩ | ⟨p, v, hi, -, rfl⟩ :=
      hdone
    case inl | inr.inl | inr.inr.inl | inr.inr.inr.inl => simp [Instr.port]
    case inr.inr.inr.inr =>
      have hport : i.port = p := by
        simp only [List.mem_cons, List.not_mem_nil, or_false] at hi
        obtain rfl | rfl | rfl | rfl | rfl | rfl := hi <;> rfl
      rw [hport, port_setPort_same]

/-- Settles O7: by `exec_idle_failed_or_ok`, a command that ends with an error is one that failed a check. -/
theorem failedCommandChangesOnlyItsReport : Obligations.FailedCommandChangesOnlyItsReport := by
  intro i s t h hidle herr
  obtain ⟨code, -, rfl⟩ | hok := exec_idle_failed_or_ok h hidle
  · exact ⟨by rw [port_setPort_same], busy_setPort_same ((busy_eq_false_iff s i.port).1 hidle)⟩
  · exact absurd hok herr

end Sys2Proof.Machine
end

section
namespace Sys2Proof

/-! ### A cursor names its slot mod CAP (10_state.md R29) -/

/-- A power of two at most 2^(W-1) divides 2^W. -/
theorem two_pow_dvd_two_pow_W {W k : Nat} (h : 2 ^ k ≤ 2 ^ (W - 1)) : 2 ^ k ∣ 2 ^ W := by
  have hk : k ≤ W - 1 := (Nat.pow_le_pow_iff_right (by decide)).1 h
  exact pow_dvd_pow 2 (hk.trans (Nat.sub_le W 1))

/-- Masking a moved cursor gives the slot of the unwrapped sum, as long as the capacity divides 2^W. -/
theorem addW_and_mask {W k : Nat} (hW : W ≤ 32) (hdvd : 2 ^ k ∣ 2 ^ W) (a : Word) (n : Nat) :
    (addW W a n).toNat &&& (2 ^ k - 1) = (a.toNat + n) % 2 ^ k := by
  rw [Nat.and_two_pow_sub_one_eq_mod, addW_toNat hW, Nat.mod_mod_of_dvd _ hdvd]

/-- Settles O52: the wrap at 2^W is invisible mod CAP, because CAP divides 2^W. -/
theorem wrappedCursorNamesTheRightSlot : Obligations.WrappedCursorNamesTheRightSlot := by
  rintro pl _ x n ⟨k, rfl⟩ hcap -
  have hdvd := two_pow_dvd_two_pow_W hcap
  exact ⟨hdvd, addW_and_mask pl.W_le hdvd x n⟩

end Sys2Proof
end

section
namespace Sys2Proof.Machine

/-! ### The invariant, operation by operation (10_state.md R26, R28, R32) -/

variable {s t : State} {p : Port} {x : Xfer}

/-- What the invariant asks of a record in flight on port `p`: planned for the port's own cursor, and within the free
space (ENQ) or the elements available (DEQ). -/
def InFlight (s : State) : Port → Xfer → Prop
  | .P, x => Planned s.buf .IN s.buf.wc x ∧ x.n + s.occ ≤ s.buf.cap.toNat
  | .C, x => Planned s.buf .OUT s.buf.rc x ∧ x.n ≤ s.occ

/-- A record in flight needs a configured buffer, and ERR = OK. -/
theorem Inv.inFlight (h : Inv s) (hx : (s.port p).xfer = some x) :
    s.buf.cfg = true ∧ InFlight s p x ∧ (s.port p).err = .ok := by
  have hcfg : s.buf.cfg = true := by
    by_contra hc
    obtain ⟨-, hP, hC⟩ := h.idle (by simpa using hc)
    cases p
    · cases hP.symm.trans hx
    · cases hC.symm.trans hx
  cases p
  · obtain ⟨hplan, hroom, herr⟩ := h.enq x hx
    exact ⟨hcfg, ⟨hplan, hroom⟩, herr⟩
  · obtain ⟨hplan, hroom, herr⟩ := h.deq x hx
    exact ⟨hcfg, ⟨hplan, hroom⟩, herr⟩

/-- A port's registers may change to any whose record the invariant allows. -/
theorem Inv.setPort (h : Inv s) {r : PortRegs}
    (hr : ∀ x, r.xfer = some x → s.buf.cfg = true ∧ InFlight s p x ∧ r.err = .ok) : Inv (s.setPort p r) := by
  have hnone (hc : s.buf.cfg = false) : r.xfer = none :=
    Option.eq_none_iff_forall_ne_some.2 fun x hx => Bool.false_ne_true (hc.symm.trans (hr x hx).1)
  cases p with
  | P =>
    refine ⟨h.mem_wf, h.wc_lt, h.rc_lt, fun hc => ?_, fun hc => ?_, fun x hx => ?_, h.deq⟩
    · obtain ⟨hbuf, -, hC⟩ := h.idle hc
      exact ⟨hbuf, hnone hc, hC⟩
    · exact { h.configured hc with }
    · obtain ⟨-, ⟨hplan, hroom⟩, herr⟩ := hr x hx
      exact ⟨hplan, hroom, herr⟩
  | C =>
    refine ⟨h.mem_wf, h.wc_lt, h.rc_lt, fun hc => ?_, fun hc => ?_, h.enq, fun x hx => ?_⟩
    · obtain ⟨hbuf, hP, -⟩ := h.idle hc
      exact ⟨hbuf, hP, hnone hc⟩
    · exact { h.configured hc with }
    · obtain ⟨-, ⟨hplan, hroom⟩, herr⟩ := hr x hx
      exact ⟨hplan, hroom, herr⟩

/-- The registers of a port that ends idle may change freely. -/
theorem Inv.setPort_idle (h : Inv s) {r : PortRegs} (hr : r.xfer = none) : Inv (s.setPort p r) :=
  h.setPort fun x hx => by cases hr.symm.trans hx

/-- The registers of a port that keep its record and its ERR may change freely. -/
theorem Inv.setPort_keep (h : Inv s) {r : PortRegs} (hx : r.xfer = (s.port p).xfer) (he : r.err = (s.port p).err) :
    Inv (s.setPort p r) :=
  h.setPort fun _ hr => he ▸ h.inFlight (hx ▸ hr)

/-- The invariant speaks of the block and of memory's canonical form, and of nothing else in the state. -/
theorem Inv.of_block_eq (h : Inv s) (hmem : Memory.wf t.mem) (hbuf : t.buf = s.buf) (hplat : t.plat = s.plat)
    (hP : t.portP = s.portP) (hC : t.portC = s.portC) : Inv t := by
  cases s; cases t
  cases hbuf; cases hplat; cases hP; cases hC
  exact ⟨hmem, h.wc_lt, h.rc_lt, h.idle, fun hc => { h.configured hc with }, h.enq, h.deq⟩

theorem Inv.writeByte (h : Inv s) (a : Word) (v : Byte) : Inv (s.writeByte a v) :=
  h.of_block_eq (writeByte_wf s a v h.mem_wf) rfl rfl rfl rfl

theorem Inv.with_agenda (h : Inv s) (ag : List Event) : Inv { s with agenda := ag } :=
  h.of_block_eq h.mem_wf rfl rfl rfl rfl

/-- A block at its reset values meets the invariant, whatever memory holds (70_reset_and_hazards.md R250, R252). -/
theorem inv_of_reset_block (hmem : Memory.wf s.mem) (hbuf : s.buf = Buffer.reset) (hP : s.portP = PortRegs.reset)
    (hC : s.portC = PortRegs.reset) : Inv s where
  mem_wf := hmem
  wc_lt := by rw [hbuf]; exact Nat.two_pow_pos _
  rc_lt := by rw [hbuf]; exact Nat.two_pow_pos _
  idle _ := ⟨hbuf, by rw [hP]; rfl, by rw [hC]; rfl⟩
  configured hc := by rw [hbuf] at hc; cases hc
  enq x hx := by rw [hP] at hx; cases hx
  deq x hx := by rw [hC] at hx; cases hx

/-- With both ports idle, the buffer may become any legally configured one with both cursors 0: what CONFIG and CLEAR
leave. -/
theorem Inv.with_emptied_buffer (h : Inv s) (hidle : ∀ q, s.busy q = false) {b : Buffer} (hcfg : b.cfg = true)
    (hwc : b.wc = 0) (hrc : b.rc = 0) (hpow : isPow2 b.cap.toNat = true) (hle : b.cap.toNat ≤ 2 ^ (s.plat.W - 1))
    (hE : 0 < b.esize.toNat) (hfit : b.capBytes ≤ 2 ^ 32 - 1) : Inv { s with buf := b } where
  mem_wf := h.mem_wf
  wc_lt := by simp [hwc]
  rc_lt := by simp [hrc]
  idle hc := by cases hcfg.symm.trans hc
  configured _ := ⟨hpow, hle, hE, hfit, by simp [State.occ, hwc, hrc]⟩
  enq x hx := by cases ((busy_eq_false_iff s .P).1 (hidle .P)).symm.trans hx
  deq x hx := by cases ((busy_eq_false_iff s .C).1 (hidle .C)).symm.trans hx

/-! ### Commands keep the invariant -/

/-- A fresh plan is a record with no byte copied yet (41_transfer.md R140). -/
theorem planned_planXfer (b : Buffer) (dir : Dir) (ext pos : Word) (n : Nat) :
    Planned b dir pos (planXfer b dir ext pos n) := ⟨rfl, rfl, rfl, rfl, Nat.zero_le _⟩

/-- CONFIG's capacity is a whole number of elements within the region, so it fits a word and its bytes do too. -/
theorem configuredBuffer_legal (p : Port) (s : State) : (configuredBuffer p s).cap.toNat = configCapacity p s ∧
    (configuredBuffer p s).capBytes ≤ 2 ^ 32 - 1 := by
  have hL : (operandLength p s).toNat < 2 ^ 32 := (operandLength p s).isLt
  have hcap : (configuredBuffer p s).cap.toNat = configCapacity p s := by
    rw [configuredBuffer, BitVec.toNat_ofNat]
    exact Nat.mod_eq_of_lt ((Nat.div_le_self _ _).trans_lt hL)
  refine ⟨hcap, ?_⟩
  calc (configuredBuffer p s).capBytes
      = configCapacity p s * (operandElementSize p s).toNat := by rw [Buffer.capBytes, hcap, configuredBuffer]
    _ ≤ (operandLength p s).toNat := Nat.div_mul_le_self _ _
    _ ≤ 2 ^ 32 - 1 := Nat.le_pred_of_lt hL

theorem idle_of_idle_other (hb : s.busy p = false) (ho : s.busy p.other = false) (q : Port) : s.busy q = false := by
  by_cases hq : q = p
  · rw [hq, hb]
  · rw [eq_other_of_ne _ _ hq, ho]

/-- A query runs on the port it names. -/
theorem port_of_mem_queries {i : Instr} (hi : i ∈ [Instr.qocc p, .qspace p, .qempty p, .qfull p, .qcap p, .qesize p]) :
    i.port = p := by
  simp only [List.mem_cons, List.not_mem_nil, or_false] at hi
  obtain rfl | rfl | rfl | rfl | rfl | rfl := hi <;> rfl

theorem Inv.exec_next {i : Instr} (h : Inv s) (he : exec i s = .next t) : Inv t := by
  obtain ⟨-, rfl⟩ | ⟨hb, code, -, rfl⟩ | ⟨hb, hdone⟩ := exec_cases he
  · exact h.setPort_keep rfl rfl
  · exact h.setPort_idle ((busy_eq_false_iff _ _).1 hb)
  · have hnone := (busy_eq_false_iff _ _).1 hb
    obtain ⟨p, rfl, ho, hE, hpow, hle, rfl⟩ | ⟨rfl, hcfg, rfl⟩ | ⟨rfl, hcfg, rfl⟩ | ⟨p, rfl, hcfg, ho, rfl⟩ |
      ⟨p, v, hi, hcfg, rfl⟩ := hdone
    case inl =>
      obtain ⟨hcap, hfit⟩ := configuredBuffer_legal p s
      rw [← hcap] at hpow hle
      exact (h.with_emptied_buffer (idle_of_idle_other hb ho) rfl rfl rfl hpow hle hE hfit).setPort_idle hnone
    case inr.inl =>
      have hocc := (h.configured hcfg).occ_le
      refine h.setPort fun x hx => ?_
      cases hx
      refine ⟨hcfg, ⟨planned_planXfer _ _ _ _ _, ?_⟩, rfl⟩
      calc min s.portP.arg1.toNat s.free + s.occ
          ≤ s.free + s.occ := Nat.add_le_add_right (min_le_right _ _) _
        _ = s.buf.cap.toNat := Nat.sub_add_cancel hocc
    case inr.inr.inl =>
      refine h.setPort fun x hx => ?_
      cases hx
      exact ⟨hcfg, ⟨planned_planXfer _ _ _ _ _, min_le_right _ _⟩, rfl⟩
    case inr.inr.inr.inl =>
      obtain ⟨hpow, hle, hE, hfit, -⟩ := h.configured hcfg
      exact (h.with_emptied_buffer (b := { s.buf with wc := 0, rc := 0 }) (idle_of_idle_other hb ho) hcfg rfl rfl hpow
        hle hE hfit).setPort_idle hnone
    case inr.inr.inr.inr => exact h.setPort_idle (port_of_mem_queries hi ▸ hnone)

theorem Inv.writeCmd_next {w : Word} (h : Inv s) (hw : writeCmd p w s = .next t) : Inv t := by
  by_cases hd : ∃ i, decode p w = .ok i
  · obtain ⟨i, hi⟩ := hd
    exact h.exec_next (writeCmd_ok hi ▸ hw)
  · rw [writeCmd_illegal hd] at hw
    cases hb : s.busy p with
    | true =>
      rw [accept_busy hb] at hw
      cases hw
      exact h.setPort_keep rfl rfl
    | false =>
      rw [accept_idle hb, raise_eq, port_setOvr_setPort, port_setOvr_same] at hw
      cases hw
      exact h.setPort_idle ((busy_eq_false_iff _ _).1 hb)

/-! ### The engines keep the invariant -/

theorem Planned.copied {b : Buffer} {dir : Dir} {pos : Word} (h : Planned b dir pos x) (hk : x.k < x.B) :
    Planned b dir pos { x with k := x.k + 1 } := ⟨h.dir_eq, h.B_eq, h.off_eq, h.F_eq, hk⟩

/-- A copy step moves `k` on within the record's bytes. -/
theorem Inv.copied (h : Inv s) (hx : (s.port p).xfer = some x) (hk : x.k < x.B) (a : Word) (v : Byte) :
    Inv ((s.writeByte a v).setXfer p (some { x with k := x.k + 1 })) := by
  obtain ⟨hcfg, hfl, herr⟩ := h.inFlight hx
  refine (h.writeByte a v).setPort fun y hy => ?_
  cases hy
  rw [port_writeByte]
  refine ⟨hcfg, ?_, herr⟩
  cases p with
  | P =>
    obtain ⟨hplan, hroom⟩ := hfl
    exact ⟨hplan.copied hk, hroom⟩
  | C =>
    obtain ⟨hplan, hn⟩ := hfl
    exact ⟨hplan.copied hk, hn⟩

/-- A plan depends on the configuration alone, so it stands when a cursor moves. -/
theorem Planned.with_cursors {b : Buffer} {dir : Dir} {pos : Word} (h : Planned b dir pos x) (wc rc : Word) :
    Planned { b with wc := wc, rc := rc } dir pos x := ⟨h.dir_eq, h.B_eq, h.off_eq, h.F_eq, h.k_le⟩

/-- The cursors may move to any whose occupancy is legal, and which suit the records in flight: the cursor of a record's
own port stays, and the record still fits. -/
theorem Inv.moveCursors (h : Inv s) (hcfg : s.buf.cfg = true) {wc rc : Word} (hwc : wc.toNat < 2 ^ s.plat.W)
    (hrc : rc.toNat < 2 ^ s.plat.W) (hocc : subW s.plat.W wc rc ≤ s.buf.cap.toNat)
    (henq : ∀ y, s.portP.xfer = some y → wc = s.buf.wc ∧ subW s.plat.W wc rc ≤ s.occ)
    (hdeq : ∀ y, s.portC.xfer = some y → rc = s.buf.rc ∧ s.occ ≤ subW s.plat.W wc rc) :
    Inv { s with buf := { s.buf with wc := wc, rc := rc } } := by
  obtain ⟨hpow, hle, hE, hfit, -⟩ := h.configured hcfg
  refine ⟨h.mem_wf, hwc, hrc, fun hc => ?_, fun _ => ⟨hpow, hle, hE, hfit, hocc⟩, fun y hy => ?_, fun y hy => ?_⟩
  · cases hcfg.symm.trans hc
  · obtain ⟨hplan, hroom, herr⟩ := h.enq y hy
    obtain ⟨rfl, hfall⟩ := henq y hy
    exact ⟨hplan.with_cursors _ _, (Nat.add_le_add_left hfall _).trans hroom, herr⟩
  · obtain ⟨hplan, hn, herr⟩ := h.deq y hy
    obtain ⟨rfl, hrise⟩ := hdeq y hy
    exact ⟨hplan.with_cursors _ _, hn.trans hrise, herr⟩

theorem addW_lt (pl : Platform) (a : Word) (n : Nat) : (addW pl.W a n).toNat < 2 ^ pl.W := by
  rw [addW_toNat pl.W_le]
  exact Nat.mod_lt _ (Nat.two_pow_pos _)

/-- A legal capacity is below 2^W, so an occupancy up to CAP does not wrap (10_state.md R28). -/
theorem Configured.cap_lt (h : Configured s) : s.buf.cap.toNat < 2 ^ s.plat.W :=
  h.cap_le.trans_lt (Nat.pow_lt_pow_right (by decide) (Nat.sub_lt s.plat.W_pos Nat.one_pos))

/-- ENQ completes: the occupancy rises by `n`, which the free space had room for. -/
theorem Inv.enqCompleted (h : Inv s) (hx : s.portP.xfer = some x) :
    Inv (endTransfer .P x { s with buf := { s.buf with wc := addW s.plat.W s.buf.wc x.n } }) := by
  obtain ⟨hcfg, ⟨-, hroom⟩, -⟩ := h.inFlight (p := .P) hx
  rw [Nat.add_comm] at hroom
  have hocc : subW s.plat.W (addW s.plat.W s.buf.wc x.n) s.buf.rc = s.occ + x.n :=
    subW_addW_left s.plat.W_le _ _ (hroom.trans_lt (h.configured hcfg).cap_lt)
  have hended : Inv (s.setPort .P { s.portP with xfer := none, result := BitVec.ofNat 32 x.n }) := h.setPort_idle rfl
  rw [endTransfer_eq]
  exact hended.moveCursors hcfg (addW_lt _ _ _) h.rc_lt (hocc.trans_le hroom) (fun _ hy => by cases hy)
    fun _ _ => ⟨rfl, (Nat.le_add_right _ _).trans_eq hocc.symm⟩

/-- DEQ completes: the occupancy falls by `n`, which were available. -/
theorem Inv.deqCompleted (h : Inv s) (hx : s.portC.xfer = some x) :
    Inv (endTransfer .C x { s with buf := { s.buf with rc := addW s.plat.W s.buf.rc x.n } }) := by
  obtain ⟨hcfg, ⟨-, hn⟩, -⟩ := h.inFlight (p := .C) hx
  have hocc : subW s.plat.W s.buf.wc (addW s.plat.W s.buf.rc x.n) ≤ s.occ :=
    (subW_addW_right s.plat.W_le _ _ hn).trans_le (Nat.sub_le _ _)
  have hended : Inv (s.setPort .C { s.portC with xfer := none, result := BitVec.ofNat 32 x.n }) := h.setPort_idle rfl
  rw [endTransfer_eq]
  exact hended.moveCursors hcfg h.wc_lt (addW_lt _ _ _) (hocc.trans (h.configured hcfg).occ_le)
    (fun _ _ => ⟨rfl, hocc⟩) fun _ hy => by cases hy

theorem Inv.engineStep_next (h : Inv s) (he : engineStep p s = some t) : Inv t := by
  cases p with
  | P =>
    obtain ⟨x, hx, -, ⟨hk, -, -, rfl⟩ | ⟨-, rfl⟩⟩ := engineStep_P_cases he
    · exact h.copied (p := .P) hx hk _ _
    · exact h.enqCompleted hx
  | C =>
    obtain ⟨x, hx, -, ⟨hk, -, -, rfl⟩ | ⟨-, rfl⟩⟩ := engineStep_C_cases he
    · exact h.copied (p := .C) hx hk _ _
    · exact h.deqCompleted hx

/-! ### Every step keeps the invariant, so every reachable state has it -/

theorem Inv.step_next (h : Inv s) (hs : step s = .next t) : Inv t := by
  obtain ⟨p, w, rest, -, hw⟩ | ⟨p, v, rest, e, -, rfl | rfl | rfl⟩ | ⟨a, v, rest, -, -, rfl⟩ |
    ⟨p, rest, -, he⟩ | ⟨rest, -, rfl⟩ | ⟨ag, mw, d, -, rfl⟩ := step_cases hs
  case inl => exact (h.with_agenda rest).writeCmd_next hw
  case inr.inl.inl | inr.inl.inr.inl | inr.inl.inr.inr => exact (h.with_agenda rest).setPort_keep rfl rfl
  case inr.inr.inl => exact (h.with_agenda rest).writeByte a v
  case inr.inr.inr.inl => exact (h.with_agenda rest).engineStep_next he
  case inr.inr.inr.inr.inl => exact inv_of_reset_block h.mem_wf rfl rfl rfl
  case inr.inr.inr.inr.inr => exact h.of_block_eq h.mem_wf rfl rfl rfl rfl

theorem inv_powerUp (pl : Platform) {m : Memory} (agenda meanwhile : List Event) (hm : Memory.wf m) :
    Inv (powerUp pl m agenda meanwhile) := inv_of_reset_block hm rfl rfl rfl

/-- A run of one more step takes a step that goes on, and then runs from there. -/
theorem core_run_succ {n : Nat} (h : core.run (n + 1) s = .next t) :
    ∃ u, step s = .next u ∧ core.run n u = .next t := by
  simp only [Host.Core.run] at h
  split at h
  · rename_i u hu
    exact ⟨u, hu, h⟩
  · cases h
  · cases h

/-- A property that every step keeps holds at the end of every run from a state that has it. -/
theorem run_keeps {Q : State → Prop} (hstep : ∀ s t, Q s → step s = .next t → Q t) {n : Nat} (hs : Q s)
    (h : core.run n s = .next t) : Q t := by
  induction n generalizing s with
  | zero =>
    cases h
    exact hs
  | succ n ih =>
    obtain ⟨u, hu, hrest⟩ := core_run_succ h
    exact ih (hstep s u hs hu) hrest

theorem Reachable.inv (h : Reachable s) : Inv s := by
  obtain ⟨pl, m, agenda, meanwhile, n, hm, hrun⟩ := h
  exact run_keeps (fun _ _ => Inv.step_next) (inv_powerUp pl agenda meanwhile hm) hrun

/-- Settles O56: the bound is part of the invariant, which every reachable state has. -/
theorem occupancyNeverExceedsCapacity : Obligations.OccupancyNeverExceedsCapacity :=
  fun _ hreach hcfg => (hreach.inv.configured hcfg).occ_le

end Sys2Proof.Machine
end

section
namespace Sys2Proof.Machine

/-! ### The backing bytes of a transfer (41_transfer.md R140, R141) -/

variable {s : State} {p : Port} {b : Buffer} {dir : Dir} {pos : Word} {x y : Xfer} {j k : Nat}

theorem phys_le_capBytes (b : Buffer) (pos : Word) : b.phys pos ≤ b.capBytes :=
  Nat.mul_le_mul_right _ (Nat.and_le_right.trans (Nat.sub_le _ _))

/-- Masking with CAP - 1 keeps a position's first byte, mod CAPB (10_state.md R29). -/
theorem phys_modEq (hpow : isPow2 b.cap.toNat = true) (pos : Word) :
    b.phys pos ≡ pos.toNat * b.esize.toNat [MOD b.capBytes] := by
  obtain ⟨i, hi⟩ := (isPow2_iff _).1 hpow
  rw [Buffer.phys, Buffer.capBytes, hi, Nat.and_two_pow_sub_one_eq_mod]
  exact (Nat.mod_modEq _ _).mul_right' _

/-- The two legs are one walk around the store: the second leg starts where the first one meets the physical end. -/
theorem Planned.backingOffset_eq_off_add_mod (h : Planned b dir pos x) (hB : x.B ≤ b.capBytes) (hk : k < x.B) :
    backingOffset x k = (x.off + k) % b.capBytes := by
  have hoff : x.off ≤ b.capBytes := h.off_eq ▸ phys_le_capBytes b pos
  have hF := h.F_eq
  rw [backingOffset]
  split
  · exact (Nat.mod_eq_of_lt (by omega)).symm
  · have hwrap : x.off + k = k - x.F + b.capBytes := by omega
    rw [hwrap, Nat.add_mod_right]
    exact (Nat.mod_eq_of_lt (by omega)).symm

/-- Byte `k` of a transfer lies `k` bytes after the first byte of its cursor's position, mod CAPB. -/
theorem Planned.backingOffset_modEq (h : Planned b dir pos x) (hpow : isPow2 b.cap.toNat = true)
    (hB : x.B ≤ b.capBytes) (hk : k < x.B) :
    backingOffset x k ≡ pos.toNat * b.esize.toNat + k [MOD b.capBytes] := by
  rw [h.backingOffset_eq_off_add_mod hB hk, h.off_eq]
  exact (Nat.mod_modEq _ _).trans ((phys_modEq hpow pos).add_right k)

/-- A planned transfer stays within the backing store. -/
theorem Planned.backingOffset_lt (h : Planned b dir pos x) (hB : x.B ≤ b.capBytes) (hk : k < x.B) :
    backingOffset x k < b.capBytes := by
  rw [h.backingOffset_eq_off_add_mod hB hk]
  exact Nat.mod_lt _ (by omega)

/-- A transfer in flight moves at most CAP elements, so at most CAPB bytes. -/
theorem Inv.B_le_capBytes (h : Inv s) (hx : (s.port p).xfer = some x) : x.B ≤ s.buf.capBytes := by
  obtain ⟨hcfg, hfl, -⟩ := h.inFlight hx
  cases p with
  | P =>
    obtain ⟨hplan, hroom⟩ := hfl
    exact hplan.B_eq ▸ Nat.mul_le_mul_right _ ((Nat.le_add_right _ _).trans hroom)
  | C =>
    obtain ⟨hplan, hn⟩ := hfl
    exact hplan.B_eq ▸ Nat.mul_le_mul_right _ (hn.trans (h.configured hcfg).occ_le)

/-- A transfer in flight stays within the backing store. -/
theorem Inv.backingOffset_lt (h : Inv s) (hx : (s.port p).xfer = some x) (hk : k < x.B) :
    backingOffset x k < s.buf.capBytes := by
  obtain ⟨-, hfl, -⟩ := h.inFlight hx
  have hB := h.B_le_capBytes hx
  cases p with
  | P => exact hfl.1.backingOffset_lt hB hk
  | C => exact hfl.1.backingOffset_lt hB hk

/-! ### Concurrent transfers use disjoint backing bytes (20_memory.md R76) -/

/-- The write cursor is `occ` positions after the read cursor, mod CAP: the wrap at 2^W is invisible there. -/
theorem Configured.rc_add_occ_modEq (h : Configured s) :
    s.buf.rc.toNat + s.occ ≡ s.buf.wc.toNat [MOD s.buf.cap.toNat] := by
  obtain ⟨i, hi⟩ := (isPow2_iff _).1 h.cap_pow2
  have hdvd : s.buf.cap.toNat ∣ 2 ^ s.plat.W := hi ▸ two_pow_dvd_two_pow_W (hi ▸ h.cap_le)
  rw [Nat.add_comm]
  exact (subW_add_modEq s.plat.W_le s.buf.wc s.buf.rc).of_dvd hdvd

/-- In a window of `N` offsets from `a`, those before `a + d` and those from `a + d` on are distinct mod `N`. -/
theorem not_modEq_across_window {N a d : Nat} (hj : d + j < N) (hk : k < d) : ¬ a + d + j ≡ a + k [MOD N] := by
  intro hmeet
  rw [Nat.add_assoc] at hmeet
  have hsame : d + j = k := (Nat.ModEq.add_left_cancel' a hmeet).eq_of_lt_of_lt hj (by omega)
  omega

/-- Counted from the first byte at RC, the DEQ's bytes lie below `occ * ESIZE`, and the ENQ's from there up to CAPB. -/
theorem Inv.backingOffset_ne (h : Inv s) (hx : s.portP.xfer = some x) (hy : s.portC.xfer = some y) (hj : j < x.B)
    (hk : k < y.B) : backingOffset x j ≠ backingOffset y k := by
  obtain ⟨hcfg, ⟨hplanx, hroom⟩, -⟩ := h.inFlight (p := .P) hx
  obtain ⟨-, ⟨hplany, hn⟩, -⟩ := h.inFlight (p := .C) hy
  have hconf := h.configured hcfg
  have henq : s.occ * s.buf.esize.toNat + j < s.buf.capBytes := by
    have hfit : (x.n + s.occ) * s.buf.esize.toNat ≤ s.buf.capBytes := Nat.mul_le_mul_right _ hroom
    rw [Nat.add_mul, ← hplanx.B_eq] at hfit
    omega
  have hdeq : k < s.occ * s.buf.esize.toNat := hk.trans_le (hplany.B_eq ▸ Nat.mul_le_mul_right _ hn)
  have hstart : (s.buf.rc.toNat + s.occ) * s.buf.esize.toNat ≡
      s.buf.wc.toNat * s.buf.esize.toNat [MOD s.buf.capBytes] := hconf.rc_add_occ_modEq.mul_right' _
  intro heq
  refine not_modEq_across_window (a := s.buf.rc.toNat * s.buf.esize.toNat) henq hdeq ?_
  rw [← Nat.add_mul]
  calc (s.buf.rc.toNat + s.occ) * s.buf.esize.toNat + j
      ≡ s.buf.wc.toNat * s.buf.esize.toNat + j [MOD s.buf.capBytes] := hstart.add_right j
    _ ≡ backingOffset x j [MOD s.buf.capBytes] :=
        (hplanx.backingOffset_modEq hconf.cap_pow2 (h.B_le_capBytes (p := .P) hx) hj).symm
    _ = backingOffset y k := heq
    _ ≡ s.buf.rc.toNat * s.buf.esize.toNat + k [MOD s.buf.capBytes] :=
        hplany.backingOffset_modEq hconf.cap_pow2 (h.B_le_capBytes (p := .C) hy) hk

/-- Settles O58: the backing offsets differ in every state of the invariant, and offsets below CAPB name different host
addresses. -/
theorem concurrentTransfersAreDisjoint : Obligations.ConcurrentTransfersAreDisjoint := by
  intro s x y hreach hx hy j k hj hk heq
  have h := hreach.inv
  obtain ⟨hcfg, -⟩ := h.inFlight (p := .P) hx
  have hfit := (h.configured hcfg).bytes_fit
  have hxlt := h.backingOffset_lt (p := .P) hx hj
  have hylt := h.backingOffset_lt (p := .C) hy hk
  exact h.backingOffset_ne hx hy hj hk (addrAdd_inj (by omega) (by omega) heq)

end Sys2Proof.Machine
end

section
namespace Sys2Proof

/-! ### Which words are commands (30_encoding.md R91, R93, R95) -/

variable {p : Port} {w : Word} {opc : BitVec 8} {i : Instr}

theorem fieldRsvd_eq_zero_iff : fieldRsvd w = 0 ↔ w.toNat / 256 = 0 := by
  have hw := w.isLt
  have hval : (fieldRsvd w).toNat = w.toNat / 256 := by
    simp only [fieldRsvd, BitVec.extractLsb'_toNat, Nat.shiftRight_eq_div_pow]
    exact Nat.mod_eq_of_lt (by omega)
  rw [← hval, ← BitVec.toNat_inj]
  rfl

theorem fieldOpc_toNat : (fieldOpc w).toNat = w.toNat % 256 := by simp [fieldOpc]

/-- A word is a command iff RSVD is 0 and its opcode names one. -/
theorem decode_eq_ok_iff : decode p w = .ok i ↔ fieldRsvd w = 0 ∧ decodeOpc p (fieldOpc w) = some i := by
  unfold decode
  split
  next hrsvd => cases decodeOpc p (fieldOpc w) <;> simp [hrsvd]
  next hrsvd => exact iff_of_false (by simp) (mt And.left hrsvd)

/-- The opcodes that name a command are those outside the three ranges of R95. -/
theorem exists_decodeOpc_iff : (∃ i, decodeOpc p opc = some i) ↔
    ¬ (opc.toNat = 0x00 ∨ (0x05 ≤ opc.toNat ∧ opc.toNat ≤ 0x0F) ∨ 0x16 ≤ opc.toNat) := by
  unfold decodeOpc
  split
  case h_11 =>
    simp only [reduceCtorEq, exists_false, false_iff, not_not, imp_false] at *
    omega
  all_goals exact iff_of_true ⟨_, rfl⟩ (by omega)

theorem exists_decode_iff : (∃ i, decode p w = .ok i) ↔
    ¬ (w.toNat / 256 ≠ 0 ∨ w.toNat % 256 = 0x00 ∨ (0x05 ≤ w.toNat % 256 ∧ w.toNat % 256 ≤ 0x0F) ∨
      0x16 ≤ w.toNat % 256) := by
  simp only [decode_eq_ok_iff, exists_and_left, fieldRsvd_eq_zero_iff, exists_decodeOpc_iff, fieldOpc_toNat, not_or,
    ne_eq, not_not]

/-- A command is issued on the port its word was written to (R92). -/
theorem port_of_decode (h : decode p w = .ok i) : i.port = p := by
  obtain ⟨-, hopc⟩ := decode_eq_ok_iff.1 h
  unfold decodeOpc at hopc
  split at hopc <;> cases hopc <;> rfl

end Sys2Proof
end

section
namespace Sys2Proof.Machine

/-! ### The outcome of a word written to a CMD register (30_encoding.md R96, R97) -/

variable {i : Instr} {p : Port} {w : Word} {s : State}

theorem exec_total (i : Instr) (s : State) : ∃ t, exec i s = .next t := by
  cases i <;> exact issue_total _ _ _ _ _ _

theorem issue_busy {admitted needsBuffer needsOtherIdle : Bool} {perform : State → State} (h : s.busy p = true) :
    issue p admitted needsBuffer needsOtherIdle perform s = .next (s.setOvr p true) := accept_busy h

theorem exec_busy (h : s.busy i.port = true) : exec i s = .next (s.setOvr i.port true) := by
  cases i <;> exact issue_busy h

/-- A word written to a busy port is dropped, whether it is a command or not (60_exceptions.md R213). -/
theorem writeCmd_busy (w : Word) (h : s.busy p = true) : writeCmd p w s = .next (s.setOvr p true) := by
  by_cases hd : ∃ i, decode p w = .ok i
  · obtain ⟨i, hi⟩ := hd
    obtain rfl := port_of_decode hi
    rw [writeCmd_ok hi, exec_busy h]
  · rw [writeCmd_illegal hd, accept_busy h]

/-- A word that is no command, accepted on an idle port, fails with ILLEGAL. -/
theorem writeCmd_illegal_idle (hd : ¬ ∃ i, decode p w = .ok i) (h : s.busy p = false) :
    writeCmd p w s = .next (s.setPort p { s.port p with ovr := false, err := .illegal, result := 0 }) := by
  rw [writeCmd_illegal hd, accept_idle h, raise_eq, port_setOvr_setPort, port_setOvr_same]

/-- Every word has an outcome: dropped on a busy port, failed with a code, or performed as the command it names. -/
theorem writeCmd_outcome (p : Port) (w : Word) (s : State) : ∃ t, writeCmd p w s = .next t ∧
    ((s.busy p = true ∧ t = s.setOvr p true) ∨
     (s.busy p = false ∧ ∃ code, code ≠ ErrCode.ok ∧
        t = s.setPort p { s.port p with ovr := false, err := code, result := 0 }) ∨
     (s.busy p = false ∧ (t.port p).err = .ok ∧ ∃ i, decode p w = .ok i ∧ exec i s = .next t)) := by
  cases hb : s.busy p with
  | true => exact ⟨_, writeCmd_busy w hb, .inl ⟨rfl, rfl⟩⟩
  | false =>
    by_cases hd : ∃ i, decode p w = .ok i
    · obtain ⟨i, hi⟩ := hd
      obtain rfl := port_of_decode hi
      obtain ⟨t, ht⟩ := exec_total i s
      refine ⟨t, (writeCmd_ok hi).trans ht, .inr ?_⟩
      obtain hfailed | hok := exec_idle_failed_or_ok ht hb
      · exact .inl ⟨rfl, hfailed⟩
      · exact .inr ⟨rfl, hok, i, hi, ht⟩
    · exact ⟨_, writeCmd_illegal_idle hd hb, .inr (.inl ⟨rfl, .illegal, by decide, rfl⟩)⟩

/-- What steps are still to come does not touch BUSY. -/
@[simp] theorem busy_with_agenda (s : State) (p : Port) (ag : List Event) :
    State.busy { s with agenda := ag } p = s.busy p := by rw [State.busy, port_with_agenda, State.busy]

/-- Settles O3: `exists_decode_iff` names the illegal words, and `writeCmd_illegal_idle` says what one does. -/
theorem illegalWordsReportIllegal : Obligations.IllegalWordsReportIllegal := by
  refine fun p w => ⟨exists_decode_iff, fun s rest hagenda hidle hillegal => ?_⟩
  rw [step_command hagenda, writeCmd_illegal_idle hillegal ((busy_with_agenda s p rest).trans hidle), port_with_agenda]

/-- Settles O6: the step issues the word, and `writeCmd_outcome` gives the three ways that ends. -/
theorem everyCommandWordHasOneOutcome : Obligations.EveryCommandWordHasOneOutcome := by
  intro p w s rest hagenda
  rw [step_command hagenda]
  have houtcome := writeCmd_outcome p w { s with agenda := rest }
  rwa [State.setOvr, busy_with_agenda, port_with_agenda] at houtcome

end Sys2Proof.Machine
end

section
namespace Sys2Proof.Machine

/-! ### CONFIG, outcome by outcome (40_construction.md R121, R124) -/

variable {p : Port} {s : State}

/-- A failure after acceptance, as one update of the port's registers. -/
theorem raise_setOvr (code : ErrCode) (b : Bool) :
    raise p code (s.setOvr p b) = s.setPort p { s.port p with ovr := b, err := code, result := 0 } := by
  rw [raise_eq, port_setOvr_setPort, port_setOvr_same]

/-- A completion after acceptance that also replaces the buffer, as one update of the port's registers. -/
theorem finish_setOvr_with_buf (v : Word) (b : Bool) (buf : Buffer) :
    finish p v { s.setOvr p b with buf := buf } =
      State.setPort { s with buf := buf } p { s.port p with ovr := b, err := .ok, result := v } := by
  rw [finish_eq, port_with_buf, port_setOvr_same]
  cases p <;> rfl

/-- The check of the other port comes after the port's own and the buffer's (60_exceptions.md R212). -/
theorem issue_otherBusy {admitted needsBuffer : Bool} {perform : State → State} (hb : s.busy p = false)
    (hadmitted : admitted = true) (hcfg : needsBuffer = true → s.buf.cfg = true) (hother : s.busy p.other = true) :
    issue p admitted needsBuffer true perform s =
      .next (s.setPort p { s.port p with ovr := false, err := .otherBusy, result := 0 }) := by
  have hcfg' : (needsBuffer && !s.buf.cfg) = false := by simpa using hcfg
  simp only [issue, accept_idle hb, hadmitted, busy_setOvr, buf_setOvr, hcfg', hother, raise_setOvr, Bool.not_true,
    Bool.and_true, Bool.false_eq_true, if_false, if_true]

/-- With both ports idle, CONFIG comes to its own checks. -/
theorem exec_config_idle (hb : s.busy p = false) (ho : s.busy p.other = false) :
    exec (.config p) s = .next (configBody p (s.setOvr p false)) := issue_ok hb rfl nofun fun _ => ho

/-! The operands are read from the ARG registers, which acceptance leaves alone. -/

@[simp] theorem operandElementSize_setOvr (b : Bool) :
    operandElementSize p (s.setOvr p b) = operandElementSize p s := by
  rw [operandElementSize, port_setOvr_same, operandElementSize]

@[simp] theorem configCapacity_setOvr (b : Bool) : configCapacity p (s.setOvr p b) = configCapacity p s := by
  rw [configCapacity, operandElementSize_setOvr, operandLength, port_setOvr_same, configCapacity, operandLength]

@[simp] theorem configuredBuffer_setOvr (b : Bool) : configuredBuffer p (s.setOvr p b) = configuredBuffer p s := by
  rw [configuredBuffer, operandElementSize_setOvr, configCapacity_setOvr, operandBase, port_setOvr_same,
    configuredBuffer, operandBase]

theorem bnot_isPow2_iff (n : Nat) : (!isPow2 n) = true ↔ ¬ ∃ k, n = 2 ^ k := by
  rw [← isPow2_iff, Bool.not_eq_true', Bool.not_eq_true]

theorem configBody_esizeZero (hE : operandElementSize p s = 0) : configBody p s = raise p .esizeZero s := if_pos hE

theorem configBody_capNotPow2 (hE : operandElementSize p s ≠ 0) (hpow : ¬ ∃ k, configCapacity p s = 2 ^ k) :
    configBody p s = raise p .capNotPow2 s := by
  rw [configBody, if_neg hE, if_pos ((bnot_isPow2_iff _).2 hpow)]

theorem configBody_capTooLarge (hE : operandElementSize p s ≠ 0) (hpow : ∃ k, configCapacity p s = 2 ^ k)
    (hlarge : 2 ^ (s.plat.W - 1) < configCapacity p s) : configBody p s = raise p .capTooLarge s := by
  rw [configBody, if_neg hE, if_neg (fun h => (bnot_isPow2_iff _).1 h hpow), if_pos hlarge]

theorem configBody_ok (hE : operandElementSize p s ≠ 0) (hpow : ∃ k, configCapacity p s = 2 ^ k)
    (hle : configCapacity p s ≤ 2 ^ (s.plat.W - 1)) : configBody p s =
      finish p (BitVec.ofNat 32 (configCapacity p s)) { s with buf := configuredBuffer p s } := by
  rw [configBody, if_neg hE, if_neg (fun h => (bnot_isPow2_iff _).1 h hpow), if_neg hle.not_gt]

theorem operandElementSize_eq_zero_iff : operandElementSize p s = 0 ↔ (s.port p).arg2.toNat = 0 := by
  rw [operandElementSize, ← BitVec.toNat_inj]
  rfl

/-- Settles O11: an idle port fails CONFIG while the other port is busy, and otherwise the four checks of `configBody`,
one by one, decide between its four ends. -/
theorem configFollowsItsPseudocode : Obligations.ConfigFollowsItsPseudocode := by
  intro p s hb base L E failed
  have hzero : operandElementSize p (s.setOvr p false) = 0 ↔ E = 0 := by
    rw [operandElementSize_setOvr, operandElementSize_eq_zero_iff]
  have hcap : configCapacity p (s.setOvr p false) = L / E := configCapacity_setOvr false
  refine ⟨decode_eq_ok_iff.2 ⟨by decide, rfl⟩, issue_otherBusy hb rfl nofun, fun ho hE => ?_, fun ho hE hpow => ?_,
    fun ho hE hpow hlarge => ?_, fun ho hE hpow hle => ?_⟩
  all_goals rw [exec_config_idle hb ho]
  · rw [configBody_esizeZero (hzero.2 hE), raise_setOvr]
  · rw [configBody_capNotPow2 (mt hzero.1 hE) (hcap ▸ hpow), raise_setOvr]
  · rw [configBody_capTooLarge (mt hzero.1 hE) (hcap ▸ hpow) (by rwa [plat_setOvr, hcap]), raise_setOvr]
  · rw [configBody_ok (mt hzero.1 hE) (hcap ▸ hpow) (by rwa [plat_setOvr, hcap]), finish_setOvr_with_buf,
      configuredBuffer_setOvr, hcap]
    rfl

end Sys2Proof.Machine
end

section
namespace Sys2Proof.Machine

/-! ### The split plan (41_transfer.md R140, R141, R149) -/

variable {b : Buffer} {dir : Dir} {pos : Word} {x : Xfer}

/-- What lies behind the physical end fits before the first byte. -/
theorem Planned.secondLeg_le_off (h : Planned b dir pos x) (hB : x.B ≤ b.capBytes) : x.B - x.F ≤ x.off := by
  have hF := h.F_eq
  omega

/-- A planned transfer visits no backing byte twice: its offsets are a walk of at most CAPB bytes. -/
theorem Planned.backingOffset_inj (h : Planned b dir pos x) (hB : x.B ≤ b.capBytes) {j k : Nat} (hj : j < x.B)
    (hk : k < x.B) (heq : backingOffset x j = backingOffset x k) : j = k := by
  rw [h.backingOffset_eq_off_add_mod hB hj, h.backingOffset_eq_off_add_mod hB hk] at heq
  exact (Nat.ModEq.add_left_cancel' x.off heq).eq_of_lt_of_lt (hj.trans_le hB) (hk.trans_le hB)

/-- The first leg is a whole number of elements: those up to the physical end, at most `n`. -/
theorem Planned.F_eq_mul_esize (h : Planned b dir pos x) :
    x.F = min x.n (b.cap.toNat - (pos.toNat &&& (b.cap.toNat - 1))) * b.esize.toNat := by
  rw [h.F_eq, h.B_eq, h.off_eq, Buffer.phys, Buffer.capBytes, ← Nat.sub_mul, Nat.mul_min_mul_right]

/-- Counted in bytes, an element's position mod CAP is its first byte's mod CAPB. -/
theorem mul_add_mod_mul_of_lt {E c : Nat} (hc : c < E) (m cap : Nat) :
    (m * E + c) % (cap * E) = m % cap * E + c := by
  have hrem : (m * E + c) % E = c := by rw [Nat.mul_add_mod_self_right, Nat.mod_eq_of_lt hc]
  have hdiv : (m * E + c) / E = m := by
    rw [Nat.mul_comm, Nat.mul_add_div (Nat.zero_lt_of_lt hc), Nat.div_eq_of_lt hc, Nat.add_zero]
  rw [Nat.mul_comm cap, Nat.mod_mul, hrem, hdiv, Nat.add_comm, Nat.mul_comm E]

/-- Byte `c` of element `i` lies in the slot `i` after the cursor's, as byte `c` of it. -/
theorem Planned.backingOffset_element (h : Planned b dir pos x) (hB : x.B ≤ b.capBytes) {i c : Nat} (hi : i < x.n)
    (hc : c < b.esize.toNat) : backingOffset x (i * b.esize.toNat + c) =
      ((pos.toNat &&& (b.cap.toNat - 1)) + i) % b.cap.toNat * b.esize.toNat + c := by
  have hk : i * b.esize.toNat + c < x.B := by
    rw [h.B_eq]
    calc i * b.esize.toNat + c < (i + 1) * b.esize.toNat := by rw [Nat.succ_mul]; omega
      _ ≤ x.n * b.esize.toNat := Nat.mul_le_mul_right _ hi
  rw [h.backingOffset_eq_off_add_mod hB hk, h.off_eq, Buffer.phys, ← Nat.add_assoc, ← Nat.add_mul, Buffer.capBytes,
    mul_add_mod_mul_of_lt hc]

/-- There is no second leg iff the transfer ends at the physical end or before it. -/
theorem Planned.secondLeg_eq_zero_iff (h : Planned b dir pos x) : x.B - x.F = 0 ↔ x.B ≤ b.capBytes - x.off := by
  have hF := h.F_eq
  omega

/-- Settles O53: a fresh plan is `Planned`, and `n` at most CAP keeps it within one round of the store. The slot is named
by the same mask on both sides, so that CAP is a power of two is not needed. -/
theorem planSplitsAtThePhysicalEnd : Obligations.PlanSplitsAtThePhysicalEnd := by
  intro b dir ext pos n _ _ hn x bo CAPB
  have h : Planned b dir pos x := planned_planXfer b dir ext pos n
  have hB : x.B ≤ b.capBytes := Nat.mul_le_mul_right _ hn
  have hdvd : b.esize.toNat ∣ x.F := h.F_eq_mul_esize ▸ Nat.dvd_mul_left _ _
  exact ⟨fun _ => h.backingOffset_eq_off_add_mod hB,
    ⟨h.secondLeg_le_off hB, fun _ _ => h.backingOffset_inj hB⟩,
    ⟨hdvd, fun _ _ => h.backingOffset_element hB⟩,
    h.secondLeg_eq_zero_iff⟩

end Sys2Proof.Machine
end

section
namespace Sys2Proof.Machine

/-! ### ENQ and DEQ: issue (41_transfer.md R142, R150) -/

variable {p : Port} {s : State}

/-- The first check after decoding: the port must be one that may run the command (60_exceptions.md R212). -/
theorem issue_wrongPort {needsBuffer needsOtherIdle : Bool} {perform : State → State} (hb : s.busy p = false) :
    issue p false needsBuffer needsOtherIdle perform s =
      .next (s.setPort p { s.port p with ovr := false, err := .wrongPort, result := 0 }) := by
  rw [issue, accept_idle hb, Bool.not_false, if_pos rfl, raise_setOvr]

/-- A transfer that starts after acceptance, as one update of the port's registers. -/
theorem startTransfer_setOvr (x : Xfer) (v : Bool) :
    startTransfer p x (s.setOvr p v) = s.setPort p { s.port p with ovr := v, err := .ok, xfer := some x } := by
  rw [startTransfer_eq, port_setOvr_setPort, port_setOvr_same]

/-- On port P, idle, with a configured buffer, ENQ starts its plan from the write cursor. -/
theorem exec_enq_starts (hb : s.busy .P = false) (hcfg : s.buf.cfg = true) :
    exec (.enq .P) s = .next (s.setPort .P { s.portP with
      ovr := false, err := .ok,
      xfer := some (planXfer s.buf .IN s.portP.arg0 s.buf.wc (min s.portP.arg1.toNat s.free)) }) := by
  have hissue : exec (.enq .P) s = .next (enqBody .P (s.setOvr .P false)) :=
    issue_ok hb rfl (fun _ => hcfg) nofun
  exact hissue.trans (congrArg _ (startTransfer_setOvr _ _))

/-- On port C, idle, with a configured buffer, DEQ starts its plan from the read cursor. -/
theorem exec_deq_starts (hb : s.busy .C = false) (hcfg : s.buf.cfg = true) :
    exec (.deq .C) s = .next (s.setPort .C { s.portC with
      ovr := false, err := .ok,
      xfer := some (planXfer s.buf .OUT s.portC.arg0 s.buf.rc (min s.portC.arg1.toNat s.occ)) }) := by
  have hissue : exec (.deq .C) s = .next (deqBody .C (s.setOvr .C false)) :=
    issue_ok hb rfl (fun _ => hcfg) nofun
  exact hissue.trans (congrArg _ (startTransfer_setOvr _ _))

/-- Settles O14: port C fails ENQ's first check, and on port P the plan of `exec_enq_starts` is the record named. -/
theorem enqLatchesItsTransfer : Obligations.EnqLatchesItsTransfer :=
  ⟨fun _ => decode_eq_ok_iff.2 ⟨by decide, rfl⟩, fun _ => issue_wrongPort, fun _ hb hcfg _ => exec_enq_starts hb hcfg⟩

/-- Settles O15: port P fails DEQ's first check, and on port C the plan of `exec_deq_starts` is the record named. -/
theorem deqLatchesItsTransfer : Obligations.DeqLatchesItsTransfer :=
  ⟨fun _ => decode_eq_ok_iff.2 ⟨by decide, rfl⟩, fun _ => issue_wrongPort, fun _ hb hcfg => exec_deq_starts hb hcfg⟩

end Sys2Proof.Machine
end

section
namespace Sys2Proof.Machine

/-! ### ENQ and DEQ: completion (41_transfer.md R144, R152) -/

variable {p : Port} {s t : State} {rest : List Event}

/-- At its turn, an engine that has a step takes it. -/
theorem step_engine (hagenda : s.agenda = .engine p :: rest) (h : engineStep p { s with agenda := rest } = some t) :
    step s = .next t := by
  rw [step_cons hagenda, perform, engineTurn_some h]

/-- Settles O26: with every byte copied, engine P's step is ENQ's completion. -/
theorem enqCompletionPublishesTheCursor : Obligations.EnqCompletionPublishesTheCursor := by
  intro s x rest hagenda hx hdir hk
  have hstep : engineStep .P { s with agenda := rest } = enqComplete x { s with agenda := rest } :=
    (engineStep_P (s := { s with agenda := rest }) hx).trans (engineStepP_complete hdir hk)
  rw [step_engine hagenda hstep, endTransfer_eq]
  rfl

/-- Settles O28: with every byte copied, engine C's step is DEQ's completion. -/
theorem deqCompletionFreesTheSpace : Obligations.DeqCompletionFreesTheSpace := by
  intro s x rest hagenda hx hdir hk
  have hstep : engineStep .C { s with agenda := rest } = deqComplete x { s with agenda := rest } :=
    (engineStep_C (s := { s with agenda := rest }) hx).trans (engineStepC_complete hdir hk)
  rw [step_engine hagenda hstep, endTransfer_eq]
  rfl

end Sys2Proof.Machine
end

section
namespace Sys2Proof

/-- Two W-bit cursors are no distance apart iff they are equal. -/
theorem subW_eq_zero_iff {W : Nat} (hW : W ≤ 32) {a b : Word} (ha : a.toNat < 2 ^ W) (hb : b.toNat < 2 ^ W) :
    subW W a b = 0 ↔ a = b := by
  rw [subW_spec hW ha hb, ← BitVec.toNat_inj]
  split <;> omega

end Sys2Proof
end

section
namespace Sys2Proof.Machine

/-! ### The queries and CLEAR (42_queries.md R180 to R188) -/

variable {p : Port} {s : State}

/-! Acceptance clears OVR alone, which no occupancy depends on. -/

@[simp] theorem occ_setOvr (b : Bool) : (s.setOvr p b).occ = s.occ := by
  rw [State.occ, plat_setOvr, buf_setOvr, State.occ]

@[simp] theorem free_setOvr (b : Bool) : (s.setOvr p b).free = s.free := by
  rw [State.free, occ_setOvr, buf_setOvr, State.free]

theorem Configured.cap_pos (h : Configured s) : 0 < s.buf.cap.toNat := by
  obtain ⟨k, hk⟩ := (isPow2_iff _).1 h.cap_pow2
  rw [hk]
  exact Nat.two_pow_pos k

theorem Inv.occ_eq_zero_iff (h : Inv s) : s.occ = 0 ↔ s.buf.wc = s.buf.rc :=
  subW_eq_zero_iff s.plat.W_le h.wc_lt h.rc_lt

/-- A query of a configured buffer on an idle port completes with its value, read after acceptance. -/
theorem query_ok {f : State → Word} (hb : s.busy p = false) (hcfg : s.buf.cfg = true) :
    query p f s = .next (s.setPort p { s.port p with ovr := false, err := .ok, result := f (s.setOvr p false) }) := by
  have hissue : query p f s = .next (finish p (f (s.setOvr p false)) (s.setOvr p false)) :=
    issue_ok hb rfl (fun _ => hcfg) nofun
  rw [hissue, finish_eq, port_setOvr_setPort, port_setOvr_same]

theorem exec_qocc_idle (hb : s.busy p = false) (hcfg : s.buf.cfg = true) :
    exec (.qocc p) s = .next (s.setPort p { s.port p with
      ovr := false, err := .ok, result := BitVec.ofNat 32 s.occ }) := by
  rw [exec, execQocc, query_ok hb hcfg, occ_setOvr]

theorem exec_qspace_idle (hb : s.busy p = false) (hcfg : s.buf.cfg = true) :
    exec (.qspace p) s = .next (s.setPort p { s.port p with
      ovr := false, err := .ok, result := BitVec.ofNat 32 s.free }) := by
  rw [exec, execQspace, query_ok hb hcfg, free_setOvr]

theorem exec_qempty_idle (hb : s.busy p = false) (hcfg : s.buf.cfg = true) :
    exec (.qempty p) s = .next (s.setPort p { s.port p with
      ovr := false, err := .ok, result := if s.buf.wc = s.buf.rc then 1 else 0 }) := by
  rw [exec, execQempty, query_ok hb hcfg, buf_setOvr]

theorem exec_qfull_idle (hb : s.busy p = false) (hcfg : s.buf.cfg = true) :
    exec (.qfull p) s = .next (s.setPort p { s.port p with
      ovr := false, err := .ok, result := if s.occ = s.buf.cap.toNat then 1 else 0 }) := by
  rw [exec, execQfull, query_ok hb hcfg, occ_setOvr, buf_setOvr]

/-- The free space is at most CAP, so its word holds it unchanged. -/
theorem toNat_ofNat_free (s : State) : (BitVec.ofNat 32 s.free).toNat = s.free :=
  Nat.mod_eq_of_lt ((Nat.sub_le _ _).trans_lt s.buf.cap.isLt)

/-- The check of the buffer comes after the port's own (60_exceptions.md R212). -/
theorem issue_notConfigured {needsOtherIdle : Bool} {perform : State → State} (hb : s.busy p = false)
    (hcfg : s.buf.cfg = false) : issue p true true needsOtherIdle perform s =
      .next (s.setPort p { s.port p with ovr := false, err := .notConfigured, result := 0 }) := by
  simp only [issue, accept_idle hb, buf_setOvr, hcfg, raise_setOvr, Bool.not_true, Bool.not_false, Bool.and_self,
    Bool.false_eq_true, if_false, if_true]

/-- With both ports idle and the buffer configured, CLEAR zeroes the cursors. -/
theorem exec_clear_ok (hb : s.busy p = false) (hcfg : s.buf.cfg = true) (ho : s.busy p.other = false) :
    exec (.clear p) s = .next (State.setPort { s with buf := { s.buf with wc := 0, rc := 0 } } p
      { s.port p with ovr := false, err := .ok, result := 0 }) := by
  have hissue : exec (.clear p) s = .next (clearBody p (s.setOvr p false)) :=
    issue_ok hb rfl (fun _ => hcfg) fun _ => ho
  rw [hissue, clearBody, finish_setOvr_with_buf, buf_setOvr]

/-- Settles O24: with QEMPTY at 1 the occupancy is 0, and with QFULL at 1 it is CAP, which is not 0. -/
theorem emptyAndFullExcludeEachOther : Obligations.EmptyAndFullExcludeEachOther := by
  intro p q s t u hreach hcfg hp hq hempty hfull ⟨ht, hu⟩
  rw [exec_qempty_idle hp hcfg, Host.Outcome.next.injEq] at hempty
  rw [exec_qfull_idle hq hcfg, Host.Outcome.next.injEq] at hfull
  subst hempty hfull
  have hflag : (1 : Word) ≠ 0 := by decide
  rw [port_setPort_same, hflag.ite_eq_left_iff] at ht hu
  have hcap : s.buf.cap.toNat = 0 := hu.symm.trans (hreach.inv.occ_eq_zero_iff.2 ht)
  exact (hreach.inv.configured hcfg).cap_pos.ne' hcap

/-- Settles O16: the value of `exec_qocc_idle`, within the bound of the invariant. -/
theorem qoccReturnsTheOccupancy : Obligations.QoccReturnsTheOccupancy :=
  ⟨fun _ => decode_eq_ok_iff.2 ⟨by decide, rfl⟩,
    fun _ _ hb hcfg => ⟨exec_qocc_idle hb hcfg, fun h => (h.configured hcfg).occ_le⟩⟩

/-- Settles O17: the word of `exec_qspace_idle` is the free space, which the occupancy completes to CAP. -/
theorem qspaceReturnsTheFreeSpace : Obligations.QspaceReturnsTheFreeSpace := by
  refine ⟨fun _ => decode_eq_ok_iff.2 ⟨by decide, rfl⟩, fun p s hb hcfg hocc => ⟨_, ?_, exec_qspace_idle hb hcfg⟩⟩
  rw [toNat_ofNat_free, State.free, Nat.sub_add_cancel hocc]

/-- Settles O18: the two cases of the value of `exec_qempty_idle`. -/
theorem qemptyComparesTheCursors : Obligations.QemptyComparesTheCursors := by
  refine ⟨fun _ => decode_eq_ok_iff.2 ⟨by decide, rfl⟩,
    fun p s hb hcfg => ⟨fun heq => ?_, fun hne => ?_, fun h => h.occ_eq_zero_iff.symm⟩⟩
  · rw [exec_qempty_idle hb hcfg, if_pos heq]
  · rw [exec_qempty_idle hb hcfg, if_neg hne]

/-- Settles O19: the two cases of the value of `exec_qfull_idle`, and CAP, at least 1, bounds the occupancy. -/
theorem qfullComparesWithCapacity : Obligations.QfullComparesWithCapacity := by
  refine ⟨fun _ => decode_eq_ok_iff.2 ⟨by decide, rfl⟩,
    fun p s hb hcfg => ⟨fun heq => ?_, fun hne => ?_, fun h => ?_⟩⟩
  · rw [exec_qfull_idle hb hcfg, if_pos heq]
  · rw [exec_qfull_idle hb hcfg, if_neg hne]
  · have hpos := (h.configured hcfg).cap_pos
    have hle := (h.configured hcfg).occ_le
    omega

/-- Settles O22: the buffer's check, then the other port's, then CLEAR itself. -/
theorem clearZeroesTheCursors : Obligations.ClearZeroesTheCursors :=
  ⟨fun _ => decode_eq_ok_iff.2 ⟨by decide, rfl⟩, fun _ _ hb =>
    ⟨issue_notConfigured hb, exec_clear_ok hb, fun hcfg => issue_otherBusy hb rfl fun _ => hcfg⟩⟩

end Sys2Proof.Machine
end

section
namespace Sys2Proof.Machine

/-! ### OVR, step by step (60_exceptions.md R213) -/

variable {i : Instr} {p q : Port} {w : Word} {s t : State}

/-- A command touches the buffer and its own port's registers, and leaves OVR at 1 exactly where the port was busy. -/
theorem exec_eq_setPort (h : exec i s = .next t) :
    ∃ b r, r.ovr = s.busy i.port ∧ t = State.setPort { s with buf := b } i.port r := by
  obtain ⟨hb, rfl⟩ | ⟨hb, code, -, rfl⟩ | ⟨hb, hdone⟩ := exec_cases h
  · exact ⟨_, _, hb.symm, rfl⟩
  · exact ⟨_, _, hb.symm, rfl⟩
  · obtain ⟨p, rfl, -, -, -, -, rfl⟩ | ⟨rfl, -, rfl⟩ | ⟨rfl, -, rfl⟩ | ⟨p, rfl, -, -, rfl⟩ | ⟨p, v, hi, -, rfl⟩ :=
      hdone
    case inl | inr.inl | inr.inr.inl | inr.inr.inr.inl => exact ⟨_, _, hb.symm, rfl⟩
    case inr.inr.inr.inr =>
      obtain rfl := port_of_mem_queries hi
      exact ⟨_, _, hb.symm, rfl⟩

/-- So does any word written to a CMD register, a command or not. -/
theorem writeCmd_eq_setPort (h : writeCmd p w s = .next t) :
    ∃ b r, r.ovr = s.busy p ∧ t = State.setPort { s with buf := b } p r := by
  by_cases hd : ∃ i, decode p w = .ok i
  · obtain ⟨i, hi⟩ := hd
    obtain rfl := port_of_decode hi
    exact exec_eq_setPort (writeCmd_ok hi ▸ h)
  · cases hb : s.busy p with
    | true =>
      cases (writeCmd_busy w hb).symm.trans h
      exact ⟨_, _, rfl, rfl⟩
    | false =>
      cases (writeCmd_illegal_idle hd hb).symm.trans h
      exact ⟨_, _, rfl, rfl⟩

theorem writeCmd_ovr (h : writeCmd p w s = .next t) : (t.port p).ovr = s.busy p := by
  obtain ⟨b, r, hr, rfl⟩ := writeCmd_eq_setPort h
  rwa [port_setPort_same]

theorem writeCmd_port_of_ne (h : writeCmd q w s = .next t) (hpq : p ≠ q) : t.port p = s.port p := by
  obtain ⟨b, r, -, rfl⟩ := writeCmd_eq_setPort h
  rw [port_setPort_of_ne _ _ _ _ hpq, port_with_buf]

/-- New registers for one port that keep its OVR keep both. -/
theorem ovr_setPort {r : PortRegs} (hr : r.ovr = (s.port q).ovr) : ((s.setPort q r).port p).ovr = (s.port p).ovr := by
  by_cases hpq : p = q
  · rw [hpq, port_setPort_same, hr]
  · rw [port_setPort_of_ne _ _ _ _ hpq]

/-- No engine touches OVR. -/
theorem engineStep_ovr (h : engineStep q s = some t) : (t.port p).ovr = (s.port p).ovr := by
  have hcopy (a : Word) (v : Byte) (y : Option Xfer) :
      (((s.writeByte a v).setXfer q y).port p).ovr = (s.port p).ovr :=
    (ovr_setPort (by rfl)).trans (by rw [port_writeByte])
  have hend (b : Buffer) (x : Xfer) : ((endTransfer q x { s with buf := b }).port p).ovr = (s.port p).ovr := by
    rw [endTransfer_eq]
    exact (ovr_setPort (by rfl)).trans (by rw [port_with_buf])
  cases q with
  | P =>
    obtain ⟨x, -, -, ⟨-, -, -, rfl⟩ | ⟨-, rfl⟩⟩ := engineStep_P_cases h
    · exact hcopy _ _ _
    · exact hend _ _
  | C =>
    obtain ⟨x, -, -, ⟨-, -, -, rfl⟩ | ⟨-, rfl⟩⟩ := engineStep_C_cases h
    · exact hcopy _ _ _
    · exact hend _ _

/-- Every step keeps OVR[p], but for a word written to `p`, which leaves the old BUSY[p] there, and a reset. -/
theorem step_ovr_cases (p : Port) (h : step s = .next t) :
    (∃ w, NextIsCommand p w s ∧ (t.port p).ovr = s.busy p) ∨ (∃ rest, s.agenda = .reset :: rest) ∨
    (t.port p).ovr = (s.port p).ovr := by
  obtain ⟨q, w, rest, hagenda, hw⟩ | ⟨q, v, rest, e, -, rfl | rfl | rfl⟩ | ⟨a, v, rest, -, -, rfl⟩ |
    ⟨q, rest, -, he⟩ | ⟨rest, hagenda, -⟩ | ⟨ag, mw, d, -, rfl⟩ := step_cases h
  case inl =>
    by_cases hpq : p = q
    · subst hpq
      exact .inl ⟨w, ⟨rest, hagenda⟩, by rw [writeCmd_ovr hw, busy_with_agenda]⟩
    · exact .inr (.inr (by rw [writeCmd_port_of_ne hw hpq, port_with_agenda]))
  case inr.inl.inl | inr.inl.inr.inl | inr.inl.inr.inr =>
    exact .inr (.inr ((ovr_setPort (by rfl)).trans (by rw [port_with_agenda])))
  case inr.inr.inl => exact .inr (.inr (by rw [port_writeByte, port_with_agenda]))
  case inr.inr.inr.inl => exact .inr (.inr (by rw [engineStep_ovr he, port_with_agenda]))
  case inr.inr.inr.inr.inl => exact .inr (.inl ⟨rest, hagenda⟩)
  case inr.inr.inr.inr.inr => exact .inr (.inr (by cases p <;> rfl))

/-- Settles O5: `writeCmd_busy` is the drop, `writeCmd_ovr` the clearing, and `step_ovr_cases` leaves no third way for
OVR to fall. -/
theorem overrunDropsAndSticks : Obligations.OverrunDropsAndSticks := by
  refine ⟨fun p w s rest hagenda hb => ?_, fun p w s rest hagenda hb => ?_, fun p s t hstep hset hclear => ?_⟩
  · rw [step_command hagenda, writeCmd_busy w ((busy_with_agenda s p rest).trans hb), State.setOvr, port_with_agenda]
  · obtain ⟨t, ht, -⟩ := writeCmd_outcome p w { s with agenda := rest }
    exact ⟨t, (step_command hagenda).trans ht, (writeCmd_ovr ht).trans ((busy_with_agenda s p rest).trans hb)⟩
  · obtain ⟨w, hw, hovr⟩ | hreset | hkept := step_ovr_cases p hstep
    · exact .inl ⟨w, hw, hovr.symm.trans hclear⟩
    · exact .inr hreset
    · cases hset.symm.trans (hkept.symm.trans hclear)

end Sys2Proof.Machine
end

section
namespace Sys2Proof.Machine

/-! ### The order of the error causes (60_exceptions.md R212) -/

variable {i : Instr} {s : State}

/-- While CFG = 0, a command its port admits fails the buffer's check, whatever the other port does. Only CONFIG does
not ask for it. -/
theorem exec_notConfigured (hb : s.busy i.port = false) (hadmitted : i.wellFormed = true) (hi : i ≠ .config i.port)
    (hcfg : s.buf.cfg = false) : exec i s =
      .next (s.setPort i.port { s.port i.port with ovr := false, err := .notConfigured, result := 0 }) := by
  cases i with
  | config p => exact absurd rfl hi
  | enq p =>
    obtain rfl : p = .P := of_decide_eq_true hadmitted
    exact issue_notConfigured hb hcfg
  | deq p =>
    obtain rfl : p = .C := of_decide_eq_true hadmitted
    exact issue_notConfigured hb hcfg
  | clear p | qocc p | qspace p | qempty p | qfull p | qcap p | qesize p => exact issue_notConfigured hb hcfg

/-- The steps still to come and a port's registers are apart, so they may be replaced in either order. -/
theorem setPort_with_agenda (s : State) (p : Port) (r : PortRegs) (ag : List Event) :
    State.setPort { s with agenda := ag } p r = { s.setPort p r with agenda := ag } := by cases p <;> rfl

/-- Settles O8: a busy port drops the word; on an idle one decoding comes first, then the checks of `issue`, one lemma
each, and CONFIG's own checks are those of its pseudocode. -/
theorem errorsComeInPriorityOrder : Obligations.ErrorsComeInPriorityOrder := by
  refine fun p s => ⟨fun hb w rest hagenda => ?_, fun hb => ?_⟩
  · obtain ⟨hdrop, -, -⟩ := overrunDropsAndSticks
    exact ⟨_, hdrop p w s rest hagenda hb, by rw [port_setPort_same]⟩
  · obtain ⟨-, hother, hesize, hpow2, hlarge, -⟩ := configFollowsItsPseudocode p s hb
    refine ⟨fun w rest hagenda hd => ?_, fun hC => ?_, fun hP => ?_, fun i hip hadmitted hi hcfg => ?_,
      fun hcfg => issue_otherBusy hb rfl fun _ => hcfg, hother, hesize, hpow2, hlarge⟩
    · obtain ⟨-, hillegal⟩ := illegalWordsReportIllegal p w
      exact (hillegal s rest hagenda hb hd).trans (congrArg _ (setPort_with_agenda s p _ rest))
    · subst hC
      exact issue_wrongPort hb
    · subst hP
      exact issue_wrongPort hb
    · subst hip
      exact exec_notConfigured hb hadmitted hi hcfg

end Sys2Proof.Machine
end

section
namespace Sys2Proof.Machine

/-! ### Hardware reset (70_reset_and_hazards.md R250) -/

/-- R250: a reset at the head of the agenda is performed by that one step, whatever the state. -/
theorem step_reset {s : State} {rest : List Event} (hagenda : s.agenda = .reset :: rest) :
    step s = .next (hardwareReset { s with agenda := rest }) := by
  rw [step_cons hagenda, perform]

@[simp] theorem port_hardwareReset (s : State) (p : Port) : (hardwareReset s).port p = PortRegs.reset := by
  cases p <;> rfl

/-- R250: a reset discards the transfer of either port. -/
@[simp] theorem busy_hardwareReset (s : State) (p : Port) : (hardwareReset s).busy p = false := by
  rw [busy_eq_false_iff, port_hardwareReset, PortRegs.reset]

/-- Settles O43: the step is `hardwareReset`, which replaces the buffer and both ports' registers by their reset values
and no other field. -/
theorem hardwareResetZeroesTheBlock : Obligations.HardwareResetZeroesTheBlock := by
  intro s rest hagenda
  exact ⟨_, step_reset hagenda, rfl, port_hardwareReset _, busy_hardwareReset _, rfl, rfl, rfl, rfl, rfl⟩

end Sys2Proof.Machine
end

section
namespace Sys2Proof.Machine

/-! ### The invariant in every state (10_state.md section 4) -/

/-- Settles O54: `Inv.step_next` goes through everything a step can do. -/
theorem controllerInvariantIsKept : Obligations.ControllerInvariantIsKept := fun _ _ => Inv.step_next

/-- Settles O55: at both, the block has its reset values and memory its canonical form. -/
theorem powerUpMeetsTheInvariant : Obligations.PowerUpMeetsTheInvariant :=
  ⟨inv_of_reset_block reset_memory_wf rfl rfl rfl, fun pl _ agenda meanwhile => inv_powerUp pl agenda meanwhile⟩

/-- Settles O57: the configuration's part of the invariant, which every reachable state has. -/
theorem configuredBufferIsLegal : Obligations.ConfiguredBufferIsLegal := by
  intro s hreach hcfg
  have hconf := hreach.inv.configured hcfg
  exact ⟨(isPow2_iff _).1 hconf.cap_pow2, hconf.cap_pos, hconf.cap_le, hconf.esize_pos, hconf.bytes_fit⟩

end Sys2Proof.Machine
end

section
namespace Sys2Proof

/-! ### Cursor arithmetic (00_scope.md R10) -/

/-- The subtraction mod 2^32 that `subW` reduces again leaves the remainder of the integer difference, because 2^W
divides 2^32. -/
theorem subW_intCast {W : Nat} (hW : W ≤ 32) (a b : Word) :
    (subW W a b : Int) = ((a.toNat : Int) - (b.toNat : Int)) % ((2 ^ W : Nat) : Int) := by
  have hdvd : ((2 ^ W : Nat) : Int) ∣ ((2 ^ 32 : Nat) : Int) := Int.natCast_dvd_natCast.2 (pow_dvd_pow 2 hW)
  have hb : b.toNat ≤ 2 ^ 32 := b.isLt.le
  have hsum : ((a.toNat + (2 ^ 32 - b.toNat) : Nat) : Int) = (a.toNat : Int) - b.toNat + ((2 ^ 32 : Nat) : Int) := by
    omega
  rw [subW_toNat hW, Int.natCast_mod, hsum, Int.add_emod, Int.emod_eq_zero_of_dvd hdvd, Int.add_zero, Int.emod_emod]

/-- Settles O51: `subW_intCast` for the difference, and `addW_toNat` for the sum. -/
theorem cursorArithmeticIsModular : Obligations.CursorArithmeticIsModular :=
  fun pl a b n => ⟨subW_intCast pl.W_le a b, addW_toNat pl.W_le a n⟩

/-! ### Decoding and encoding (30_encoding.md R91, R93, R98) -/

variable {p : Port} {w : Word} {i : Instr}

/-- An opcode that names a command is that command's opcode. -/
theorem opcode_of_decodeOpc {opc : BitVec 8} (h : decodeOpc p opc = some i) : opcode i = opc := by
  unfold decodeOpc at h
  split at h
  case h_11 => cases h
  all_goals
    rename_i hopc
    cases h
    exact BitVec.eq_of_toNat_eq hopc.symm

theorem decodeOpc_opcode (i : Instr) : decodeOpc i.port (opcode i) = some i := by cases i <;> rfl

/-- RSVD is 0 in every command's word (R91). -/
theorem fieldRsvd_encode : ∀ i : Instr, fieldRsvd (encode i) = 0
  | .config p => Laws.ReservedBitsClear.config p
  | .enq p => Laws.ReservedBitsClear.enq p
  | .deq p => Laws.ReservedBitsClear.deq p
  | .clear p => Laws.ReservedBitsClear.clear p
  | .qocc p => Laws.ReservedBitsClear.qocc p
  | .qspace p => Laws.ReservedBitsClear.qspace p
  | .qempty p => Laws.ReservedBitsClear.qempty p
  | .qfull p => Laws.ReservedBitsClear.qfull p
  | .qcap p => Laws.ReservedBitsClear.qcap p
  | .qesize p => Laws.ReservedBitsClear.qesize p

theorem decode_encode (i : Instr) : decode i.port (encode i) = .ok i :=
  decode_eq_ok_iff.2 ⟨fieldRsvd_encode i, by rw [fieldOpc_encode, decodeOpc_opcode]⟩

/-- A word is its two fields, so RSVD = 0 and the opcode determine it. -/
theorem encode_of_decode (h : decode p w = .ok i) : encode i = w := by
  obtain ⟨hrsvd, hopc⟩ := decode_eq_ok_iff.1 h
  refine BitVec.eq_of_toNat_eq ?_
  rw [encode_toNat, opcode_of_decodeOpc hopc, fieldOpc_toNat]
  have hhigh := fieldRsvd_eq_zero_iff.1 hrsvd
  omega

/-- Settles O2: `decode_encode` one way; the other way, the port is the one written and the word is its two fields. -/
theorem decodeAndEncodeAgree : Obligations.DecodeAndEncodeAgree :=
  ⟨decode_encode, fun _ _ _ h => ⟨port_of_decode h, encode_of_decode h⟩⟩

/-- Settles O1: each word of the table is the encoding of its command. -/
theorem tableWordsDecode : Obligations.TableWordsDecode := fun p =>
  ⟨decode_encode (.config p), decode_encode (.enq p), decode_encode (.deq p), decode_encode (.clear p),
    decode_encode (.qocc p), decode_encode (.qspace p), decode_encode (.qempty p), decode_encode (.qfull p),
    decode_encode (.qcap p), decode_encode (.qesize p)⟩

end Sys2Proof
end

section
namespace Sys2Proof.Machine

/-! ### Commands: outcome, frame, and the remarks on CONFIG -/

variable {i : Instr} {p : Port} {s t : State}

/-- Settles O4: the step issues the word (`step_command`), and a word that decodes is executed. -/
theorem stepRunsTheDecodedCommand : Obligations.StepRunsTheDecodedCommand :=
  fun _ _ _ _ _ hdec hagenda => (step_command hagenda).trans (writeCmd_ok hdec)

/-- Settles O9: every command is an `issue`, which always answers a next state. -/
theorem everyCommandAnswersANextState : Obligations.EveryCommandAnswersANextState := exec_total

/-- Everything a command may change: the buffer (CONFIG, CLEAR), its port's OVR, ERR and RESULT, and XFER (ENQ, DEQ). -/
theorem exec_frame (h : exec i s = .next t) : ∃ b o e v x,
    t = State.setPort { s with buf := b } i.port { s.port i.port with ovr := o, err := e, result := v, xfer := x } ∧
    (i ≠ .config i.port → i ≠ .clear i.port → b = s.buf) ∧
    (i = .clear i.port → b = { s.buf with wc := b.wc, rc := b.rc }) ∧
    (i ≠ .enq i.port → i ≠ .deq i.port → x = (s.port i.port).xfer) ∧
    (i = .enq i.port ∨ i = .deq i.port → e = .ok → v = (s.port i.port).result) := by
  obtain ⟨-, rfl⟩ | ⟨-, code, hcode, rfl⟩ | ⟨-, hdone⟩ := exec_cases h
  · exact ⟨_, _, _, _, _, rfl, fun _ _ => rfl, fun _ => rfl, fun _ _ => rfl, fun _ _ => rfl⟩
  · exact ⟨_, _, _, _, _, rfl, fun _ _ => rfl, fun _ => rfl, fun _ _ => rfl, fun _ hok => absurd hok hcode⟩
  · obtain ⟨p, rfl, -, -, -, -, rfl⟩ | ⟨rfl, -, rfl⟩ | ⟨rfl, -, rfl⟩ | ⟨p, rfl, -, -, rfl⟩ | ⟨p, v, hi, -, rfl⟩ :=
      hdone
    case inl => exact ⟨_, _, _, _, _, rfl, fun hne => absurd rfl hne, nofun, fun _ _ => rfl, nofun⟩
    case inr.inl => exact ⟨_, _, _, _, _, rfl, fun _ _ => rfl, nofun, fun hne => absurd rfl hne, fun _ _ => rfl⟩
    case inr.inr.inl =>
      exact ⟨_, _, _, _, _, rfl, fun _ _ => rfl, nofun, fun _ hne => absurd rfl hne, fun _ _ => rfl⟩
    case inr.inr.inr.inl =>
      exact ⟨_, _, _, _, _, rfl, fun _ hne => absurd rfl hne, fun _ => rfl, fun _ _ => rfl, nofun⟩
    case inr.inr.inr.inr =>
      obtain rfl := port_of_mem_queries hi
      refine ⟨_, _, _, _, _, rfl, fun _ _ => rfl, fun _ => rfl, fun _ _ => rfl, fun hx => ?_⟩
      obtain hx | hx := hx <;> rw [hx] at hi <;> simp at hi

/-- Settles O10: the state that `exec_frame` writes out differs from the one before in the fields it names alone. -/
theorem commandFrame : Obligations.CommandFrame := by
  intro i s t h
  obtain ⟨b, o, e, v, x, ht, hbuf, hclear, hxfer, hresult⟩ := exec_frame h
  have hown : t.port i.port = { s.port i.port with ovr := o, err := e, result := v, xfer := x } := by
    rw [ht, port_setPort_same]
  have hother : t.port i.port.other = s.port i.port.other := by rw [ht, port_setPort_other, port_with_buf]
  have hb : t.buf = b := by rw [ht, buf_setPort]
  have hmem : t.mem = s.mem := by rw [ht, mem_setPort]
  rw [hown, hb]
  exact ⟨readByte_congr hmem, hmem, by rw [ht, plat_setPort], by rw [ht, agenda_setPort], by rw [ht, meanwhile_setPort],
    by rw [ht, readData_setPort], hother, rfl, rfl, rfl, hbuf, hclear, hxfer, hresult⟩

/-- A CONFIG that ends with ERR = OK on an idle port has passed every check and built its buffer. -/
theorem exec_config_ok (h : exec (.config p) s = .next t) (hb : s.busy p = false) (hok : (t.port p).err = .ok) :
    s.busy p.other = false ∧ 0 < (s.port p).arg2.toNat ∧
    t = State.setPort { s with buf := configuredBuffer p s } p
      { s.port p with ovr := false, err := .ok, result := BitVec.ofNat 32 (configCapacity p s) } := by
  obtain ⟨hbusy, -⟩ | ⟨-, code, hcode, rfl⟩ | ⟨-, ⟨q, hq, ho, hE, -, -, rfl⟩ | ⟨hq, -⟩ | ⟨hq, -⟩ | ⟨q, hq, -⟩ |
    ⟨q, v, hq, -⟩⟩ := exec_cases h
  · cases hb.symm.trans hbusy
  · exact absurd hok (by simpa [Instr.port] using hcode)
  · cases hq
    exact ⟨ho, hE, rfl⟩
  all_goals simp at hq

/-- A power of two below 2^32 is at most 2^31. -/
theorem two_pow_le_of_lt {k : Nat} (h : 2 ^ k < 2 ^ 32) : 2 ^ k ≤ 2 ^ 31 :=
  Nat.pow_le_pow_right (by decide) (Nat.le_of_lt_succ ((Nat.pow_lt_pow_iff_right (by decide)).1 h))

/-- Settles O12: CAP_TOO_LARGE is the last check, and a capacity that is a power of two below 2^32 passes it at
W = 32. -/
theorem capacityIsNeverTooLargeAtW32 : Obligations.CapacityIsNeverTooLargeAtW32 := by
  intro p s t hW hb h
  obtain ⟨-, hother, hesize, hpow2, -, hdone⟩ := configFollowsItsPseudocode p s hb
  have herr {e : ErrCode} {u : State} (hu : exec (.config p) s = .next u) (hue : (u.port p).err = e)
      (hne : e ≠ .capTooLarge) : (t.port p).err ≠ .capTooLarge := by
    cases h.symm.trans hu
    rwa [hue]
  cases ho : s.busy p.other with
  | true => exact herr (e := .otherBusy) (hother ho) (by rw [port_setPort_same]) (by decide)
  | false =>
    by_cases hE : (s.port p).arg2.toNat = 0
    · exact herr (e := .esizeZero) (hesize ho hE) (by rw [port_setPort_same]) (by decide)
    · by_cases hpow : ∃ k, (s.port p).arg1.toNat / (s.port p).arg2.toNat = 2 ^ k
      · have hlt : (s.port p).arg1.toNat / (s.port p).arg2.toNat < 2 ^ 32 :=
          (Nat.div_le_self _ _).trans_lt (s.port p).arg1.isLt
        have hle : (s.port p).arg1.toNat / (s.port p).arg2.toNat ≤ 2 ^ (s.plat.W - 1) := by
          obtain ⟨k, hk⟩ := hpow
          rw [hk] at hlt
          rw [hk, hW]
          exact two_pow_le_of_lt hlt
        exact herr (e := .ok) (hdone ho hE hpow hle) (by rw [port_setPort_same]) (by decide)
      · exact herr (e := .capNotPow2) (hpow2 ho hE hpow) (by rw [port_setPort_same]) (by decide)

/-- Settles O13: CAPB is E * floor(L / E), so what it leaves of L is the remainder of L by E. -/
theorem backingStoreIsWholeElements : Obligations.BackingStoreIsWholeElements := by
  intro p s t hb h hok
  obtain ⟨-, hE, rfl⟩ := exec_config_ok h hb hok
  obtain ⟨hcap, -⟩ := configuredBuffer_legal p s
  have hbytes : (configuredBuffer p s).capBytes = (s.port p).arg2.toNat * configCapacity p s := by
    rw [Buffer.capBytes, hcap, Nat.mul_comm]
    rfl
  have hsplit : (s.port p).arg2.toNat * configCapacity p s + (s.port p).arg1.toNat % (s.port p).arg2.toNat =
      (s.port p).arg1.toNat := Nat.div_add_mod _ _
  have hrem := Nat.mod_lt (s.port p).arg1.toNat hE
  rw [port_setPort_same, buf_setPort]
  refine ⟨?_, ?_, rfl⟩ <;> rw [hbytes] <;> omega

/-! ### Queries (42_queries.md R180, R185, R186) -/

/-- Settles O20: the value of QCAP is read after acceptance, which leaves the buffer. -/
theorem qcapReturnsTheCapacity : Obligations.QcapReturnsTheCapacity :=
  ⟨fun p => decode_encode (.qcap p), fun _ _ hb hcfg => by rw [exec, execQcap, query_ok hb hcfg, buf_setOvr]⟩

/-- Settles O21: the value of QESIZE is read after acceptance, which leaves the buffer. -/
theorem qesizeReturnsTheElementSize : Obligations.QesizeReturnsTheElementSize :=
  ⟨fun p => decode_encode (.qesize p), fun _ _ hb hcfg => by rw [exec, execQesize, query_ok hb hcfg, buf_setOvr]⟩

theorem occ_congr (hbuf : t.buf = s.buf) (hplat : t.plat = s.plat) : t.occ = s.occ := by
  rw [State.occ, State.occ, hbuf, hplat]

/-- Each of the six queries returns a value of the committed buffer state and of W, and of nothing else. -/
theorem exec_eq_query (hi : i ∈ [Instr.qocc p, .qspace p, .qempty p, .qfull p, .qcap p, .qesize p]) :
    ∃ f, (∀ s, exec i s = query p f s) ∧ ∀ s t : State, t.buf = s.buf → t.plat = s.plat → f t = f s := by
  simp only [List.mem_cons, List.not_mem_nil, or_false] at hi
  obtain rfl | rfl | rfl | rfl | rfl | rfl := hi
  · exact ⟨fun s => BitVec.ofNat 32 s.occ, fun _ => rfl, fun s t hb hp => by simp only [occ_congr hb hp]⟩
  · exact ⟨fun s => BitVec.ofNat 32 s.free, fun _ => rfl,
      fun s t hb hp => by simp only [State.free, occ_congr hb hp, hb]⟩
  · exact ⟨fun s => if s.buf.wc = s.buf.rc then 1 else 0, fun _ => rfl, fun s t hb _ => by simp only [hb]⟩
  · exact ⟨fun s => if s.occ = s.buf.cap.toNat then 1 else 0, fun _ => rfl,
      fun s t hb hp => by simp only [occ_congr hb hp, hb]⟩
  · exact ⟨fun s => s.buf.cap, fun _ => rfl, fun s t hb _ => by simp only [hb]⟩
  · exact ⟨fun s => s.buf.esize, fun _ => rfl, fun s t hb _ => by simp only [hb]⟩

/-- A query has one of three outcomes, and which one, and with what report, depends on BUSY[p] and the buffer alone. -/
theorem query_repeat {f : State → Word} (hf : ∀ s t : State, t.buf = s.buf → t.plat = s.plat → f t = f s)
    {u : State} (ht : query p f s = .next t) (hu : query p f t = .next u) :
    t.buf = s.buf ∧ u.buf = s.buf ∧ (u.port p).result = (t.port p).result ∧ (u.port p).err = (t.port p).err := by
  cases hb : s.busy p with
  | true =>
    cases (issue_busy hb).symm.trans ht
    cases (issue_busy ((busy_setOvr p true).trans hb)).symm.trans hu
    simp
  | false =>
    have hidle {r : PortRegs} (hr : r.xfer = (s.port p).xfer) : (s.setPort p r).busy p = false :=
      busy_setPort_same (hr.trans ((busy_eq_false_iff s p).1 hb))
    cases hcfg : s.buf.cfg with
    | false =>
      cases (issue_notConfigured hb hcfg).symm.trans ht
      cases (issue_notConfigured (hidle (by rfl)) (by rwa [buf_setPort])).symm.trans hu
      simp
    | true =>
      cases (query_ok hb hcfg).symm.trans ht
      cases (query_ok (hidle (by rfl)) (by rwa [buf_setPort])).symm.trans hu
      refine ⟨by simp, by simp, ?_, by simp⟩
      rw [port_setPort_same, port_setPort_same]
      exact hf _ _ (by simp) (by simp)

/-- Settles O23: each query is a `query` of a value that its own report does not enter. -/
theorem queriesAreIdempotent : Obligations.QueriesAreIdempotent := by
  intro p i hi s t u ht hu
  obtain ⟨f, hexec, hf⟩ := exec_eq_query hi
  exact query_repeat hf (hexec s ▸ ht) (hexec t ▸ hu)

end Sys2Proof.Machine
end

section
namespace Sys2Proof.Machine

/-! ### Both engines in one form (41_transfer.md R143, R144, R147, R151, R152)

ENQ and DEQ mirror each other: the names here say, per port, where a byte comes from and goes to and which cursor a
completion moves, so that what follows is proved once for both. -/

variable {p q : Port} {s t : State} {x : Xfer} {rest : List Event}

/-- The direction of port `p`'s transfers. -/
def engineDir : Port → Dir
  | .P => .IN
  | .C => .OUT

/-- The host address that byte `j` of a transfer on port `p` is read from. -/
def sourceAddr (p : Port) (s : State) (x : Xfer) (j : Nat) : Word :=
  match p with
  | .P => addrAdd x.ext j
  | .C => s.backingAddr (backingOffset x j)

/-- The host address that byte `j` of a transfer on port `p` is written to. -/
def destAddr (p : Port) (s : State) (x : Xfer) (j : Nat) : Word :=
  match p with
  | .P => s.backingAddr (backingOffset x j)
  | .C => addrAdd x.ext j

/-- The buffer once a transfer on port `p` is published: the cursor the port owns has moved on by `n`. -/
def completedBuffer (p : Port) (s : State) (x : Xfer) : Buffer :=
  match p with
  | .P => { s.buf with wc := addW s.plat.W s.buf.wc x.n }
  | .C => { s.buf with rc := addW s.plat.W s.buf.rc x.n }

/-- The state after engine `p`'s copy step for record `x`. -/
def copiedState (p : Port) (s : State) (x : Xfer) : State :=
  (s.writeByte (destAddr p s x x.k) (s.readByte (sourceAddr p s x x.k))).setXfer p (some { x with k := x.k + 1 })

/-- The state after engine `p`'s completion step for record `x`. -/
def completedState (p : Port) (s : State) (x : Xfer) : State :=
  endTransfer p x { s with buf := completedBuffer p s x }

theorem engineStep_copy (hx : (s.port p).xfer = some x) (hdir : x.dir = engineDir p) (hk : x.k < x.B)
    (hsrc : s.plat.memAdmit (sourceAddr p s x x.k) .read = true)
    (hdst : s.plat.memAdmit (destAddr p s x x.k) .write = true) : engineStep p s = some (copiedState p s x) := by
  cases p with
  | P =>
    rw [engineStep_P hx, engineStepP_copy hdir hk]
    exact copyStep_ok hsrc hdst
  | C =>
    rw [engineStep_C hx, engineStepC_copy hdir hk]
    exact copyStep_ok hsrc hdst

theorem engineStep_complete (hx : (s.port p).xfer = some x) (hdir : x.dir = engineDir p) (hk : x.k = x.B) :
    engineStep p s = some (completedState p s x) := by
  cases p with
  | P =>
    rw [engineStep_P hx, engineStepP_complete hdir hk]
    rfl
  | C =>
    rw [engineStep_C hx, engineStepC_complete hdir hk]
    rfl

/-- Everything engine `p` can do: copy the next byte, or complete. -/
theorem engineStep_cases (h : engineStep p s = some t) : ∃ x, (s.port p).xfer = some x ∧ x.dir = engineDir p ∧
    ((x.k < x.B ∧ t = copiedState p s x) ∨ (x.k = x.B ∧ t = completedState p s x)) := by
  cases p with
  | P =>
    obtain ⟨x, hx, hdir, ⟨hk, -, -, rfl⟩ | ⟨hk, rfl⟩⟩ := engineStep_P_cases h
    · exact ⟨x, hx, hdir, .inl ⟨hk, rfl⟩⟩
    · exact ⟨x, hx, hdir, .inr ⟨hk, rfl⟩⟩
  | C =>
    obtain ⟨x, hx, hdir, ⟨hk, -, -, rfl⟩ | ⟨hk, rfl⟩⟩ := engineStep_C_cases h
    · exact ⟨x, hx, hdir, .inl ⟨hk, rfl⟩⟩
    · exact ⟨x, hx, hdir, .inr ⟨hk, rfl⟩⟩

/-- Engine `p` has no step exactly where it is idle, where an access is withheld, and where its record is one that no
rule gives a step for. -/
theorem engineStep_none_iff : engineStep p s = none ↔ ∀ x, (s.port p).xfer = some x →
    (x.dir = engineDir p ∧ x.k < x.B ∧ (s.plat.memAdmit (sourceAddr p s x x.k) .read = false ∨
      s.plat.memAdmit (destAddr p s x x.k) .write = false)) ∨ ¬ (x.dir = engineDir p ∧ x.k ≤ x.B) := by
  cases p with
  | P => exact engineStep_P_none
  | C => exact engineStep_C_none

/-! ### What the two steps change -/

@[simp] theorem port_copiedState_same :
    (copiedState p s x).port p = { s.port p with xfer := some { x with k := x.k + 1 } } := by
  rw [copiedState, port_setXfer_same, port_writeByte]

@[simp] theorem port_copiedState_other : (copiedState p s x).port p.other = s.port p.other := by
  rw [copiedState, port_setXfer_other, port_writeByte]

@[simp] theorem buf_copiedState : (copiedState p s x).buf = s.buf := by rw [copiedState, buf_setXfer, buf_writeByte]

@[simp] theorem plat_copiedState : (copiedState p s x).plat = s.plat := by
  rw [copiedState, plat_setXfer, plat_writeByte]

@[simp] theorem agenda_copiedState : (copiedState p s x).agenda = s.agenda := by
  rw [copiedState, agenda_setXfer, agenda_writeByte]

@[simp] theorem meanwhile_copiedState : (copiedState p s x).meanwhile = s.meanwhile := by
  rw [copiedState, meanwhile_setXfer, meanwhile_writeByte]

theorem readByte_copiedState_dest :
    (copiedState p s x).readByte (destAddr p s x x.k) = s.readByte (sourceAddr p s x x.k) := by
  rw [copiedState, readByte_congr (mem_setXfer _ _ _), readByte_writeByte_same]

theorem readByte_copiedState_of_ne {a : Word} (ha : a ≠ destAddr p s x x.k) :
    (copiedState p s x).readByte a = s.readByte a := by
  rw [copiedState, readByte_congr (mem_setXfer _ _ _), readByte_writeByte_other _ _ ha]

@[simp] theorem port_completedState_same : (completedState p s x).port p =
    { s.port p with xfer := none, result := BitVec.ofNat 32 x.n } := by
  rw [completedState, endTransfer_eq, port_setPort_same, port_with_buf]

@[simp] theorem port_completedState_other : (completedState p s x).port p.other = s.port p.other := by
  rw [completedState, endTransfer_eq, port_setPort_other, port_with_buf]

@[simp] theorem buf_completedState : (completedState p s x).buf = completedBuffer p s x := by
  rw [completedState, endTransfer_eq, buf_setPort]

@[simp] theorem mem_completedState : (completedState p s x).mem = s.mem := by
  rw [completedState, endTransfer_eq, mem_setPort]

@[simp] theorem plat_completedState : (completedState p s x).plat = s.plat := by
  rw [completedState, endTransfer_eq, plat_setPort]

@[simp] theorem agenda_completedState : (completedState p s x).agenda = s.agenda := by
  rw [completedState, endTransfer_eq, agenda_setPort]

@[simp] theorem meanwhile_completedState : (completedState p s x).meanwhile = s.meanwhile := by
  rw [completedState, endTransfer_eq, meanwhile_setPort]

/-- A completion moves one cursor and leaves the configuration. -/
theorem completedBuffer_config (p : Port) (s : State) (x : Xfer) : (completedBuffer p s x).cfg = s.buf.cfg ∧
    (completedBuffer p s x).base = s.buf.base ∧ (completedBuffer p s x).cap = s.buf.cap ∧
    (completedBuffer p s x).esize = s.buf.esize := by
  cases p <;> exact ⟨rfl, rfl, rfl, rfl⟩

/-- What an engine's step leaves: the other port, the platform, the lists of steps to come, BASE, and its own port's
ERR. -/
theorem engineStep_frame (h : engineStep p s = some t) : t.port p.other = s.port p.other ∧ t.plat = s.plat ∧
    t.agenda = s.agenda ∧ t.meanwhile = s.meanwhile ∧ t.buf.base = s.buf.base ∧ (t.port p).err = (s.port p).err := by
  obtain ⟨x, -, -, ⟨-, rfl⟩ | ⟨-, rfl⟩⟩ := engineStep_cases h
  · simp
  · simp [completedBuffer_config]

/-! ### One byte, and the engine's readiness -/

/-- Settles O25: with both accesses admitted, engine P's step is the copy step, which writes its destination byte
alone. -/
theorem enqCopyStepMovesOneByte : Obligations.EnqCopyStepMovesOneByte := by
  intro s x rest hagenda hx hdir hk src dst hsrc hdst
  have hstep := engineStep_copy (p := .P) (s := { s with agenda := rest }) hx hdir hk hsrc hdst
  exact ⟨_, step_engine hagenda hstep, readByte_copiedState_dest,
    fun _ ha => readByte_copiedState_of_ne ha, rfl, rfl, rfl, rfl, rfl, rfl, rfl⟩

/-- Settles O27: with both accesses admitted, engine C's step is the copy step, which writes its destination byte
alone. -/
theorem deqCopyStepMovesOneByte : Obligations.DeqCopyStepMovesOneByte := by
  intro s x rest hagenda hx hdir hk src dst hsrc hdst
  have hstep := engineStep_copy (p := .C) (s := { s with agenda := rest }) hx hdir hk hsrc hdst
  exact ⟨_, step_engine hagenda hstep, readByte_copiedState_dest,
    fun _ ha => readByte_copiedState_of_ne ha, rfl, rfl, rfl, rfl, rfl, rfl, rfl⟩

/-- A record of the invariant is one its engine has a step for, as far as the platform admits it. -/
theorem Inv.record (h : Inv s) (hx : (s.port p).xfer = some x) : x.dir = engineDir p ∧ x.k ≤ x.B := by
  obtain ⟨-, hfl, -⟩ := h.inFlight hx
  cases p with
  | P => exact ⟨hfl.1.dir_eq, hfl.1.k_le⟩
  | C => exact ⟨hfl.1.dir_eq, hfl.1.k_le⟩

/-- In a state of the invariant, an engine whose next accesses are admitted has a step. -/
theorem Inv.engineStep_ne_none (h : Inv s) (hx : (s.port p).xfer = some x)
    (hadmit : x.k < x.B → s.plat.memAdmit (sourceAddr p s x x.k) .read = true ∧
      s.plat.memAdmit (destAddr p s x x.k) .write = true) : engineStep p s ≠ none := by
  intro hnone
  obtain ⟨-, hk, hrefused⟩ | hmalformed := engineStep_none_iff.1 hnone x hx
  · obtain ⟨hsrc, hdst⟩ := hadmit hk
    simp [hsrc, hdst] at hrefused
  · exact hmalformed (h.record hx)

/-- With nothing withheld, that is every busy port. -/
theorem Inv.engineStep_ne_none_of_busy (h : Inv s) (hadmit : ∀ a kind, s.plat.memAdmit a kind = true)
    (hb : s.busy p = true) : engineStep p s ≠ none := by
  obtain ⟨x, hx⟩ := (busy_eq_true_iff s p).1 hb
  exact h.engineStep_ne_none hx fun _ => ⟨hadmit _ _, hadmit _ _⟩

/-- A step is taken on a busy port only. -/
theorem busy_of_engineStep (h : engineStep p s = some t) : s.busy p = true := by
  obtain ⟨x, hx, -⟩ := engineStep_cases h
  exact (busy_eq_true_iff s p).2 ⟨x, hx⟩

/-- Settles O30: `busy_of_engineStep` one way, `Inv.engineStep_ne_none_of_busy` the other. -/
theorem engineHasAStepExactlyWhileBusy : Obligations.EngineHasAStepExactlyWhileBusy :=
  fun _ _ h hadmit => ⟨fun ⟨_, ht⟩ => busy_of_engineStep ht,
    fun hb => Option.ne_none_iff_exists'.1 (h.engineStep_ne_none_of_busy hadmit hb)⟩

/-- Settles O50: the invariant has ERR = OK of a record in flight, and an engine's step keeps ERR of its own port and
all of the other one. -/
theorem noErrorWhileATransferRuns : Obligations.NoErrorWhileATransferRuns := by
  refine ⟨fun p s hreach hb => ?_, fun p q s t h => ?_⟩
  · obtain ⟨x, hx⟩ := (busy_eq_true_iff s p).1 hb
    obtain ⟨-, -, herr⟩ := hreach.inv.inFlight hx
    exact herr
  · obtain ⟨hother, -, -, -, -, herr⟩ := engineStep_frame h
    by_cases hq : q = p
    · rwa [hq]
    · rw [eq_other_of_ne _ _ hq, hother]

end Sys2Proof.Machine
end

section
namespace Sys2Proof.Machine

/-! ### What one step does to the buffer and to the platform (10_state.md section 4) -/

variable {i : Instr} {p : Port} {w : Word} {s t : State}

/-- A command changes the buffer only as a CONFIG or a CLEAR that ends with ERR = OK while both ports are idle. -/
theorem exec_buf_cases (h : exec i s = .next t) : t.buf = s.buf ∨
    ((∀ q, s.busy q = false) ∧ (t.port i.port).err = .ok ∧
      ((i = .config i.port ∧ t.buf = configuredBuffer i.port s) ∨
        (i = .clear i.port ∧ t.buf = { s.buf with wc := 0, rc := 0 }))) := by
  obtain ⟨-, rfl⟩ | ⟨-, code, -, rfl⟩ | ⟨hb, hdone⟩ := exec_cases h
  · exact .inl (buf_setOvr _ _ _)
  · exact .inl (buf_setPort _ _ _)
  · obtain ⟨p, rfl, ho, -, -, -, rfl⟩ | ⟨-, -, rfl⟩ | ⟨-, -, rfl⟩ | ⟨p, rfl, -, ho, rfl⟩ | ⟨p, v, -, -, rfl⟩ := hdone
    · exact .inr ⟨idle_of_idle_other hb ho, by simp [Instr.port], .inl ⟨rfl, buf_setPort _ _ _⟩⟩
    · exact .inl (buf_setPort _ _ _)
    · exact .inl (buf_setPort _ _ _)
    · exact .inr ⟨idle_of_idle_other hb ho, by simp [Instr.port], .inr ⟨rfl, buf_setPort _ _ _⟩⟩
    · exact .inl (buf_setPort _ _ _)

/-- Everything a word written to a CMD register can do: run the command it is the word of, or, dropped or illegal,
change its port's report and leave its record. -/
theorem writeCmd_cases (h : writeCmd p w s = .next t) : (∃ i, i.port = p ∧ encode i = w ∧ exec i s = .next t) ∨
    ∃ r, r.xfer = (s.port p).xfer ∧ t = s.setPort p r := by
  by_cases hd : ∃ i, decode p w = .ok i
  · obtain ⟨i, hi⟩ := hd
    exact .inl ⟨i, port_of_decode hi, encode_of_decode hi, writeCmd_ok hi ▸ h⟩
  · right
    cases hb : s.busy p with
    | true =>
      cases (writeCmd_busy w hb).symm.trans h
      exact ⟨_, by rfl, rfl⟩
    | false =>
      cases (writeCmd_illegal_idle hd hb).symm.trans h
      exact ⟨_, by rfl, rfl⟩

/-- So does any word written to a CMD register, which is then the word of that command. -/
theorem writeCmd_buf_cases (h : writeCmd p w s = .next t) : t.buf = s.buf ∨
    ((∀ q, s.busy q = false) ∧ (t.port p).err = .ok ∧
      ((w = 0x00000001 ∧ t.buf = configuredBuffer p s) ∨
        (w = 0x00000004 ∧ t.buf = { s.buf with wc := 0, rc := 0 }))) := by
  obtain ⟨i, rfl, rfl, hexec⟩ | ⟨r, -, rfl⟩ := writeCmd_cases h
  · refine (exec_buf_cases hexec).imp_right ?_
    rintro ⟨hidle, herr, ⟨hconfig, hbuf⟩ | ⟨hclear, hbuf⟩⟩
    · exact ⟨hidle, herr, .inl ⟨by rw [hconfig]; rfl, hbuf⟩⟩
    · exact ⟨hidle, herr, .inr ⟨by rw [hclear]; rfl, hbuf⟩⟩
  · exact .inl (buf_setPort _ _ _)

/-- Everything a step can do to the buffer: nothing, a successful CONFIG or CLEAR, a completion, or a reset. -/
theorem step_buf_cases (h : step s = .next t) : t.buf = s.buf ∨
    (∃ p, NextIsCommand p 0x00000001 s ∧ (∀ q, s.busy q = false) ∧ (t.port p).err = .ok ∧
      t.buf = configuredBuffer p s) ∨
    (∃ p, NextIsCommand p 0x00000004 s ∧ (∀ q, s.busy q = false) ∧ (t.port p).err = .ok ∧
      t.buf = { s.buf with wc := 0, rc := 0 }) ∨
    (∃ p x, (s.port p).xfer = some x ∧ x.k = x.B ∧ (t.port p).xfer = none ∧ t.buf = completedBuffer p s x) ∨
    ((∃ rest, s.agenda = .reset :: rest) ∧ t.buf = Buffer.reset) := by
  obtain ⟨p, w, rest, hagenda, hw⟩ | ⟨p, v, rest, e, -, rfl | rfl | rfl⟩ | ⟨a, v, rest, -, -, rfl⟩ |
    ⟨p, rest, -, he⟩ | ⟨rest, hagenda, rfl⟩ | ⟨ag, mw, d, -, rfl⟩ := step_cases h
  case inl =>
    refine (writeCmd_buf_cases hw).imp_right ?_
    simp only [busy_with_agenda]
    have hconfigured : configuredBuffer p { s with agenda := rest } = configuredBuffer p s := by cases p <;> rfl
    rintro ⟨hidle, herr, ⟨rfl, hbuf⟩ | ⟨rfl, hbuf⟩⟩
    · exact .inl ⟨p, ⟨rest, hagenda⟩, hidle, herr, hbuf.trans hconfigured⟩
    · exact .inr (.inl ⟨p, ⟨rest, hagenda⟩, hidle, herr, hbuf⟩)
  case inr.inr.inr.inl =>
    obtain ⟨x, hx, -, ⟨-, rfl⟩ | ⟨hk, rfl⟩⟩ := engineStep_cases he
    · exact .inl buf_copiedState
    · rw [port_with_agenda] at hx
      refine .inr (.inr (.inr (.inl ⟨p, x, hx, hk, by rw [port_completedState_same], ?_⟩)))
      rw [buf_completedState]
      cases p <;> rfl
  case inr.inr.inr.inr.inl => exact .inr (.inr (.inr (.inr ⟨⟨rest, hagenda⟩, rfl⟩)))
  case inr.inl.inl | inr.inl.inr.inl | inr.inl.inr.inr => exact .inl (by simp)
  case inr.inr.inl | inr.inr.inr.inr.inr => exact .inl rfl

/-- Settles O45: of the ways a step changes the buffer, CONFIG sets CFG, a reset clears it, and the others keep it. -/
theorem cfgChangesOnlyByConfigOrReset : Obligations.CfgChangesOnlyByConfigOrReset := by
  intro s t h hne
  obtain hbuf | ⟨p, hcmd, hidle, herr, hbuf⟩ | ⟨p, -, -, -, hbuf⟩ | ⟨p, x, -, -, -, hbuf⟩ | ⟨hreset, hbuf⟩ :=
    step_buf_cases h
  · exact absurd (by rw [hbuf]) hne
  · exact .inl ⟨by rw [hbuf]; rfl, p, hcmd, hidle p, herr⟩
  · exact absurd (by rw [hbuf]) hne
  · obtain ⟨hcfg, -⟩ := completedBuffer_config p s x
    exact absurd (by rw [hbuf, hcfg]) hne
  · exact .inr ⟨by rw [hbuf]; rfl, hreset⟩

/-- Settles O46: of the ways a step changes the buffer, only CONFIG and a reset touch BASE, CAP and ESIZE. -/
theorem configurationChangesOnlyByConfigOrReset : Obligations.ConfigurationChangesOnlyByConfigOrReset := by
  intro s t h
  obtain hbuf | ⟨p, hcmd, hidle, herr, hbuf⟩ | ⟨p, -, -, -, hbuf⟩ | ⟨p, x, -, -, -, hbuf⟩ | ⟨hreset, -⟩ :=
    step_buf_cases h
  · exact .inl (by rw [hbuf]; exact ⟨rfl, rfl, rfl⟩)
  · obtain ⟨hcap, -⟩ := configuredBuffer_legal p s
    exact .inr (.inl ⟨p, hcmd, hidle .P, hidle .C, herr, by rw [hbuf]; exact ⟨rfl, hcap, rfl⟩⟩)
  · exact .inl (by rw [hbuf]; exact ⟨rfl, rfl, rfl⟩)
  · obtain ⟨-, hconfig⟩ := completedBuffer_config p s x
    exact .inl (hbuf ▸ hconfig)
  · exact .inr (.inr hreset)

/-- Settles O47: of the ways a step changes the buffer, a completion moves its port's cursor by `addW`, and CONFIG,
CLEAR and a reset zero both. -/
theorem cursorsChangeOnlyByTheirWrites : Obligations.CursorsChangeOnlyByTheirWrites := by
  intro s t h
  obtain hbuf | ⟨p, hcmd, -, herr, hbuf⟩ | ⟨p, hcmd, -, herr, hbuf⟩ | ⟨p, x, hx, hk, hnone, hbuf⟩ |
    ⟨hreset, hbuf⟩ := step_buf_cases h
  · exact .inl (by rw [hbuf]; exact ⟨rfl, rfl⟩)
  · exact .inr (.inr (.inr (by rw [hbuf]; exact ⟨rfl, rfl, .inl ⟨p, .inl hcmd, herr⟩⟩)))
  · exact .inr (.inr (.inr (by rw [hbuf]; exact ⟨rfl, rfl, .inl ⟨p, .inr hcmd, herr⟩⟩)))
  · rw [hbuf]
    cases p with
    | P => exact .inr (.inl ⟨x, hx, hk, hnone, rfl, addW_toNat s.plat.W_le _ _⟩)
    | C => exact .inr (.inr (.inl ⟨x, hx, hk, hnone, rfl, addW_toNat s.plat.W_le _ _⟩))
  · exact .inr (.inr (.inr (by rw [hbuf]; exact ⟨rfl, rfl, .inr hreset⟩)))

theorem step_plat (h : step s = .next t) : t.plat = s.plat := by
  obtain ⟨p, w, rest, -, hw⟩ | ⟨p, v, rest, e, -, rfl | rfl | rfl⟩ | ⟨a, v, rest, -, -, rfl⟩ |
    ⟨p, rest, -, he⟩ | ⟨rest, -, rfl⟩ | ⟨ag, mw, d, -, rfl⟩ := step_cases h
  case inl =>
    obtain ⟨b, r, -, rfl⟩ := writeCmd_eq_setPort hw
    rw [plat_setPort]
  case inr.inr.inr.inl =>
    obtain ⟨-, hplat, -⟩ := engineStep_frame he
    exact hplat
  case inr.inl.inl | inr.inl.inr.inl | inr.inl.inr.inr => simp
  case inr.inr.inl | inr.inr.inr.inr.inl | inr.inr.inr.inr.inr => rfl

/-- Settles O48: no case of `step_cases` touches the platform. -/
theorem platformNeverChanges : Obligations.PlatformNeverChanges := fun _ _ => step_plat

end Sys2Proof.Machine
end

section
namespace Sys2Proof.Machine

/-! ### Stuck engines, and the machine's one fault (20_memory.md R68, 60_exceptions.md R226) -/

variable {p q : Port} {s t : State} {e : Event} {rest : List Event}

/-- Whether an engine has a step depends on its record, the platform and BASE alone. -/
theorem engineStep_none_congr (hx : (t.port p).xfer = (s.port p).xfer) (hplat : t.plat = s.plat)
    (hbase : t.buf.base = s.buf.base) : engineStep p t = none ↔ engineStep p s = none := by
  have hsrc (x : Xfer) : sourceAddr p t x x.k = sourceAddr p s x x.k := by
    cases p <;> simp [sourceAddr, State.backingAddr, hbase]
  have hdst (x : Xfer) : destAddr p t x x.k = destAddr p s x x.k := by
    cases p <;> simp [destAddr, State.backingAddr, hbase]
  simp only [engineStep_none_iff, hx, hplat, hsrc, hdst]

theorem Stuck.of_eq (h : Stuck p s) (hx : (t.port p).xfer = (s.port p).xfer) (hplat : t.plat = s.plat)
    (hbase : t.buf.base = s.buf.base) : Stuck p t := by
  obtain ⟨hb, hnone⟩ := h
  rw [State.busy, PortRegs.busy, ← hx] at hb
  exact ⟨hb, (engineStep_none_congr hx hplat hbase).2 hnone⟩

theorem Stuck.with_agenda (h : Stuck p s) (ag : List Event) : Stuck p { s with agenda := ag } :=
  h.of_eq (by rw [port_with_agenda]) rfl rfl

/-- The record of a busy port stays, but for the step of its own engine and a reset. -/
theorem step_keeps_xfer (h : step s = .next t) (hb : s.busy p = true) : (t.port p).xfer = (s.port p).xfer ∨
    (∃ rest, engineStep p { s with agenda := rest } = some t) ∨ ∃ rest, s.agenda = .reset :: rest := by
  obtain ⟨q, w, rest, -, hw⟩ | ⟨q, v, rest, e, -, rfl | rfl | rfl⟩ | ⟨a, v, rest, -, -, rfl⟩ |
    ⟨q, rest, -, he⟩ | ⟨rest, hagenda, -⟩ | ⟨ag, mw, d, -, rfl⟩ := step_cases h
  case inl =>
    left
    by_cases hq : p = q
    · subst hq
      cases (writeCmd_busy w ((busy_with_agenda s p rest).trans hb)).symm.trans hw
      simp
    · rw [writeCmd_port_of_ne hw hq, port_with_agenda]
  case inr.inl.inl | inr.inl.inr.inl | inr.inl.inr.inr =>
    left
    by_cases hq : p = q
    · subst hq
      simp
    · rw [eq_other_of_ne _ _ hq]
      simp
  case inr.inr.inl => exact .inl (by simp)
  case inr.inr.inr.inl =>
    by_cases hq : p = q
    · subst hq
      exact .inr (.inl ⟨rest, he⟩)
    · obtain ⟨hother, -⟩ := engineStep_frame he
      exact .inl (by rw [eq_other_of_ne _ _ hq, hother, port_with_agenda])
  case inr.inr.inr.inr.inl => exact .inr (.inr ⟨rest, hagenda⟩)
  case inr.inr.inr.inr.inr => exact .inl (by cases p <;> rfl)

/-- While a port is busy no step moves BASE, but for a reset: CONFIG asks for both ports idle. -/
theorem step_keeps_base (h : step s = .next t) (hb : s.busy p = true) :
    t.buf.base = s.buf.base ∨ ∃ rest, s.agenda = .reset :: rest := by
  obtain hbuf | ⟨-, -, hidle, -⟩ | ⟨-, -, -, -, hbuf⟩ | ⟨q, x, -, -, -, hbuf⟩ | ⟨hreset, -⟩ := step_buf_cases h
  · exact .inl (by rw [hbuf])
  · cases hb.symm.trans (hidle p)
  · exact .inl (by rw [hbuf])
  · obtain ⟨-, hbase, -⟩ := completedBuffer_config q s x
    exact .inl (by rw [hbuf, hbase])
  · exact .inr hreset

/-- A stuck engine is stuck after every step, unless the step is a hardware reset. -/
theorem Stuck.step_next (h : Stuck p s) (hs : step s = .next t) :
    Stuck p t ∨ ((∃ rest, s.agenda = .reset :: rest) ∧ t.busy p = false) := by
  have hreset : (∃ rest, s.agenda = .reset :: rest) → (∃ rest, s.agenda = .reset :: rest) ∧ t.busy p = false := by
    rintro ⟨rest, hagenda⟩
    cases (step_reset hagenda).symm.trans hs
    exact ⟨⟨rest, hagenda⟩, busy_hardwareReset _ _⟩
  obtain hx | ⟨rest, he⟩ | hr := step_keeps_xfer hs h.1
  · exact (step_keeps_base hs h.1).imp (h.of_eq hx (step_plat hs)) hreset
  · cases (h.with_agenda rest).2.symm.trans he
  · exact .inr (hreset hr)

theorem step_engineTurn (hagenda : s.agenda = .engine p :: rest) :
    step s = .next (engineTurn p { s with agenda := rest }) := by
  rw [step_cons hagenda, perform]

/-- A withheld access leaves a well-directed record without a step. -/
theorem stuck_of_withheld {x : Xfer} (hx : (s.port p).xfer = some x) (hdir : x.dir = engineDir p) (hk : x.k < x.B)
    (hrefused : s.plat.memAdmit (sourceAddr p s x x.k) .read = false ∨
      s.plat.memAdmit (destAddr p s x x.k) .write = false) : Stuck p s := by
  refine ⟨(busy_eq_true_iff s p).2 ⟨x, hx⟩, engineStep_none_iff.2 fun y hy => ?_⟩
  cases hx.symm.trans hy
  exact .inl ⟨hdir, hk, hrefused⟩

/-- Settles O29: `stuck_of_withheld` for each engine, a turn without a step changes nothing, and `Stuck.step_next`. -/
theorem withheldAccessSticksUntilReset : Obligations.WithheldAccessSticksUntilReset := by
  refine ⟨fun s x hx => stuck_of_withheld (p := .P) hx, fun s x hx => stuck_of_withheld (p := .C) hx,
    fun p s rest h hagenda => ?_, fun p s t => Stuck.step_next⟩
  rw [step_engineTurn hagenda, engineTurn_none (h.with_agenda rest).2]

/-- A register write does not fault. -/
theorem writeCsr_ne_fault (c : Csr) (v : Word) (s : State) (r : Fault) : writeCsr c v s ≠ .fault r := by
  cases c with
  | cmd p =>
    obtain ⟨t, ht, -⟩ := writeCmd_outcome p v s
    simp [writeCsr, ht]
  | arg0 p | arg1 p | arg2 p | result p | status p | wcur | rcur => nofun

/-- No event that is asked for faults. -/
theorem perform_ne_fault (e : Event) (s : State) (r : Fault) : perform e s ≠ .fault r := by
  cases e with
  | csrRead width off =>
    simp only [perform, hostCsrRead]
    split <;> nofun
  | csrWrite width off v =>
    simp only [perform, hostCsrWrite]
    split
    · split
      · exact writeCsr_ne_fault _ _ _ _
      · nofun
    · nofun
  | memRead a =>
    simp only [perform, hostMemRead]
    split <;> nofun
  | memWrite a v =>
    simp only [perform, hostMemWrite]
    split <;> nofun
  | wait p | engine p | reset => nofun

/-- Settles O49: an event never faults, so the agenda is empty, and `runOn` faults on a stuck port alone; in a state of
the invariant an engine is stuck only on a withheld access. -/
theorem onlyStuckEnginesFault : Obligations.OnlyStuckEnginesFault := by
  intro s r h
  cases hagenda : s.agenda with
  | cons e rest => exact absurd (step_cons hagenda ▸ h) (perform_ne_fault _ _ _)
  | nil =>
    obtain ⟨hP, hC, p, hr, hb⟩ := runOn_fault (step_nil hagenda ▸ h)
    have hnone : engineStep p s = none := by cases p <;> assumption
    refine ⟨rfl, hP, hC, ⟨p, hr, hb, hnone⟩, fun hinv => ?_⟩
    by_contra hadmit
    push Not at hadmit
    exact hinv.engineStep_ne_none_of_busy (by simpa using hadmit) hb hnone

end Sys2Proof.Machine
end

section
namespace Sys2Proof.Machine

/-! ### Runs, and the work left in a transfer (41_transfer.md section 1, 70_reset_and_hazards.md R262, R263) -/

variable {p q : Port} {s t u : State} {x : Xfer} {rest : List Event}

theorem core_run_cons (h : step s = .next u) (n : Nat) : core.run (n + 1) s = core.run n u := by
  have h' : core.step s = .next u := h
  simp only [Host.Core.run, h']

/-- A run may be cut in two. -/
theorem core_run_add {m : Nat} (h : core.run m s = .next u) (n : Nat) : core.run (m + n) s = core.run n u := by
  induction m generalizing s with
  | zero =>
    cases h
    rw [Nat.zero_add]
  | succ m ih =>
    obtain ⟨v, hv, hrest⟩ := core_run_succ h
    rw [Nat.add_right_comm, core_run_cons hv, ih hrest]

/-- The engine steps a port's transfer still takes: its copy steps and the completion, none while idle. -/
def portWork (r : PortRegs) : Nat :=
  match r.xfer with
  | none => 0
  | some x => x.B - x.k + 1

theorem portWork_of_xfer {r : PortRegs} (hx : r.xfer = some x) : portWork r = x.B - x.k + 1 := by
  simp only [portWork, hx]

theorem portWork_eq_zero_iff : portWork (s.port p) = 0 ↔ s.busy p = false := by
  rw [busy_eq_false_iff]
  cases hx : (s.port p).xfer with
  | none => simp [portWork, hx]
  | some x => simp [portWork_of_xfer hx]

/-- Every engine step does one step of the work. -/
theorem engineStep_portWork (h : engineStep p s = some t) : portWork (t.port p) + 1 = portWork (s.port p) := by
  obtain ⟨x, hx, -, ⟨hk, rfl⟩ | ⟨hk, rfl⟩⟩ := engineStep_cases h
  · rw [port_copiedState_same, portWork_of_xfer rfl, portWork_of_xfer hx]
    simp only
    omega
  · rw [port_completedState_same, portWork_of_xfer hx, hk, Nat.sub_self]
    rfl

/-- Settles O44: with both ports idle neither engine has a step, and the run is over. -/
theorem idleBlockHoldsItsState : Obligations.IdleBlockHoldsItsState := by
  intro s hagenda hP hC
  have hnoP := engineStep_idle ((busy_eq_false_iff s .P).1 hP)
  have hnoC := engineStep_idle ((busy_eq_false_iff s .C).1 hC)
  simp [step_nil hagenda, runOn, hnoP, hnoC, hP, hC]

/-- With no step asked for, some engine that has a step takes it. -/
theorem step_of_engineStep_ne_none (hagenda : s.agenda = []) (h : engineStep p s ≠ none) :
    ∃ q t, engineStep q s = some t ∧ step s = .next t := by
  rw [step_nil hagenda, runOn]
  split
  · exact ⟨.P, _, ‹_›, rfl⟩
  · exact ⟨.C, _, ‹_›, rfl⟩
  · cases p <;> contradiction

/-- The work left in both transfers, done step by step, ends the run. -/
theorem exists_run_to_end (n : Nat) (h : Inv s) (hagenda : s.agenda = [])
    (hadmit : ∀ a kind, s.plat.memAdmit a kind = true) (hwork : portWork (s.port .P) + portWork (s.port .C) = n) :
    ∃ m t, core.run m s = .next t ∧ RunOver t := by
  induction n generalizing s with
  | zero =>
    obtain ⟨hP, hC⟩ := Nat.add_eq_zero_iff.1 hwork
    exact ⟨0, s, rfl, hagenda, portWork_eq_zero_iff.1 hP, portWork_eq_zero_iff.1 hC⟩
  | succ n ih =>
    have hbusy : ∃ p, s.busy p = true := by
      by_contra hidle
      push Not at hidle
      have hno (q : Port) : portWork (s.port q) = 0 := portWork_eq_zero_iff.2 (by simpa using hidle q)
      rw [hno, hno] at hwork
      cases hwork
    obtain ⟨p, hb⟩ := hbusy
    obtain ⟨q, t, ht, hstep⟩ := step_of_engineStep_ne_none hagenda (h.engineStep_ne_none_of_busy hadmit hb)
    obtain ⟨hother, hplat, hag, -⟩ := engineStep_frame ht
    have hdone := engineStep_portWork ht
    have hwork' : portWork (t.port .P) + portWork (t.port .C) = n := by
      cases q with
      | P =>
        rw [show t.port .C = s.port .C from hother]
        omega
      | C =>
        rw [show t.port .P = s.port .P from hother]
        omega
    obtain ⟨m, v, hrun, hover⟩ := ih (h.engineStep_next ht) (hag.trans hagenda) (by rwa [hplat]) hwork'
    exact ⟨m + 1, v, (core_run_cons hstep m).trans hrun, hover⟩

/-- Settles O35: `exists_run_to_end`, and a run that is over stays where it is. -/
theorem enginesFinishOnTheirOwn : Obligations.EnginesFinishOnTheirOwn := by
  intro s h hagenda hadmit
  obtain ⟨m, t, hrun, hover⟩ := exists_run_to_end _ h hagenda hadmit rfl
  obtain ⟨hnil, hP, hC⟩ := hover
  exact ⟨m, t, hrun, ⟨hnil, hP, hC⟩, idleBlockHoldsItsState t hnil hP hC⟩

end Sys2Proof.Machine
end

section
namespace Sys2Proof.Machine

/-! ### STATUS (10_state.md R31, 60_exceptions.md R210) -/

theorem statusWord_toNat (busy ovr cfg : Bool) (err : ErrCode) : (statusWord busy ovr cfg err).toNat =
    busy.toNat + 2 * ovr.toNat + 4 * cfg.toNat + 16 * err.code.toNat := by
  cases err <;> revert busy ovr cfg <;> decide

/-- Settles O42: the fields of `statusWord` do not overlap, and `ErrCode.code` numbers the codes in table order. -/
theorem statusFieldsAreWherePlaced : Obligations.StatusFieldsAreWherePlaced := by
  intro s p
  rw [State.status, statusWord_toNat]
  cases (s.port p).err <;> rfl

/-! ### `wait` (30_encoding.md R99) -/

variable {p q : Port} {s t : State} {x y : Xfer} {rest : List Event}

theorem status_with_agenda (s : State) (p : Port) (ag : List Event) :
    State.status { s with agenda := ag } p = s.status p := by cases p <;> rfl

theorem step_wait (hagenda : s.agenda = .wait p :: rest) :
    step s = .next (waitPoll p { s with agenda := rest }) := by
  rw [step_cons hagenda, perform]

/-- A turn leaves what a step leaves, whether the engine has one or not. -/
theorem engineTurn_frame (p : Port) (s : State) : (engineTurn p s).port p.other = s.port p.other ∧
    (engineTurn p s).plat = s.plat ∧ (engineTurn p s).agenda = s.agenda ∧
    (engineTurn p s).meanwhile = s.meanwhile ∧ (engineTurn p s).buf.base = s.buf.base := by
  obtain he | ⟨-, he⟩ := engineTurn_cases p s
  · obtain ⟨hother, hplat, hag, hmw, hbase, -⟩ := engineStep_frame he
    exact ⟨hother, hplat, hag, hmw, hbase⟩
  · rw [he]
    exact ⟨rfl, rfl, rfl, rfl, rfl⟩

/-- What a turn does to its own port depends on that port, the platform and BASE alone. -/
theorem engineTurn_port_congr (hport : t.port p = s.port p) (hplat : t.plat = s.plat)
    (hbase : t.buf.base = s.buf.base) : (engineTurn p t).port p = (engineTurn p s).port p := by
  have hnone := engineStep_none_congr (congrArg PortRegs.xfer hport) hplat hbase
  obtain hs | ⟨hs, hs'⟩ := engineTurn_cases p s <;> obtain ht | ⟨ht, ht'⟩ := engineTurn_cases p t
  · obtain ⟨x, hx, -, ⟨hk, hs⟩ | ⟨hk, hs⟩⟩ := engineStep_cases hs <;>
      obtain ⟨y, hy, -, ⟨hk', ht⟩ | ⟨hk', ht⟩⟩ := engineStep_cases ht <;>
      cases hx.symm.trans ((congrArg PortRegs.xfer hport).symm.trans hy)
    · rw [hs, ht, port_copiedState_same, port_copiedState_same, hport]
    · exact absurd hk' hk.ne
    · exact absurd hk hk'.ne
    · rw [hs, ht, port_completedState_same, port_completedState_same, hport]
  · cases (hnone.1 ht).symm.trans hs
  · cases (hnone.2 hs).symm.trans ht
  · rw [hs', ht', hport]

/-- At its turn an engine takes it, and the agenda goes on. -/
theorem step_turn (hagenda : s.agenda = .engine p :: rest) : ∃ t : State, step s = .next t ∧ t.agenda = rest ∧
    t.meanwhile = s.meanwhile ∧ t.plat = s.plat ∧ t.buf.base = s.buf.base ∧
    t.port p = (engineTurn p s).port p ∧ t.port p.other = s.port p.other := by
  obtain ⟨hother, hplat, hag, hmw, hbase⟩ := engineTurn_frame p { s with agenda := rest }
  exact ⟨_, step_engineTurn hagenda, hag, hmw, hplat, hbase,
    engineTurn_port_congr (port_with_agenda _ _ _) rfl rfl, hother.trans (port_with_agenda _ _ _)⟩

/-- After a turn of each engine, P before C, each port is as its own engine's turn leaves it. -/
theorem turns_round (hagenda : s.agenda = .engine .P :: .engine .C :: rest) : ∃ t : State, core.run 2 s = .next t ∧
    t.agenda = rest ∧ t.meanwhile = s.meanwhile ∧ t.plat = s.plat ∧ t.buf.base = s.buf.base ∧
    ∀ q, t.port q = (engineTurn q s).port q := by
  obtain ⟨u, hu, hagu, hmwu, hplatu, hbaseu, hPu, hCu⟩ := step_turn hagenda
  obtain ⟨t, ht, hagt, hmwt, hplatt, hbaset, hCt, hPt⟩ := step_turn hagu
  refine ⟨t, (core_run_cons hu 1).trans (core_run_cons ht 0), hagt, hmwt.trans hmwu, hplatt.trans hplatu,
    hbaset.trans hbaseu, fun q => ?_⟩
  cases q with
  | P => exact hPt.trans hPu
  | C => exact hCt.trans (engineTurn_port_congr hCu hplatu hbaseu)

/-- A poll of a busy port with no other agent's step to come: each engine is given a turn (log 2). -/
theorem wait_busy (hagenda : s.agenda = .wait p :: rest) (hb : s.busy p = true) (hmw : s.meanwhile = []) :
    step s = .next { s with readData := s.status p, agenda := .engine .P :: .engine .C :: .wait p :: rest } := by
  rw [step_wait hagenda, waitPoll, busy_with_agenda, status_with_agenda, if_pos hb, hmw]

/-- A poll of a busy port takes the next step of another agent, where there is one (log 19). -/
theorem wait_busy_meanwhile {e : Event} {later : List Event} (hagenda : s.agenda = .wait p :: rest)
    (hb : s.busy p = true) (hmw : s.meanwhile = e :: later) : step s = .next
      { s with readData := s.status p, meanwhile := later, agenda := e :: .wait p :: rest } := by
  rw [step_wait hagenda, waitPoll, busy_with_agenda, status_with_agenda, if_pos hb, hmw]

/-- One round of the loop on a busy port: a poll, then a turn of each engine. -/
theorem wait_round (hagenda : s.agenda = .wait p :: rest) (hb : s.busy p = true) (hmw : s.meanwhile = []) :
    ∃ t : State, core.run 3 s = .next t ∧ t.agenda = .wait p :: rest ∧ t.meanwhile = [] ∧ t.plat = s.plat ∧
      t.buf.base = s.buf.base ∧ ∀ q, t.port q = (engineTurn q s).port q := by
  obtain ⟨t, hrun, hag, hmw', hplat, hbase, hport⟩ := turns_round
    (s := { s with readData := s.status p, agenda := .engine .P :: .engine .C :: .wait p :: rest }) rfl
  exact ⟨t, (core_run_cons (wait_busy hagenda hb hmw) 2).trans hrun, hag, hmw'.trans hmw, hplat, hbase,
    fun q => (hport q).trans (engineTurn_port_congr (by cases q <;> rfl) rfl rfl)⟩

/-- The loop ends on an idle port: its last read shows BUSY = 0. -/
theorem wait_idle (hagenda : s.agenda = .wait p :: rest) (hb : s.busy p = false) :
    step s = .next { s with agenda := rest, readData := s.status p } := by
  rw [step_wait hagenda, waitPoll, busy_with_agenda, status_with_agenda, hb, if_neg Bool.false_ne_true]

/-- Each round does one step of the waited-for port's work, so the loop ends. -/
theorem exists_run_to_wait_end (n : Nat) (h : Inv s) (hadmit : ∀ a kind, s.plat.memAdmit a kind = true)
    (hagenda : s.agenda = .wait p :: rest) (hmw : s.meanwhile = []) (hwork : portWork (s.port p) = n) :
    ∃ m t, core.run m s = .next t ∧ t.agenda = rest ∧ t.busy p = false ∧ t.readData.toNat % 2 = 0 := by
  induction n generalizing s with
  | zero =>
    have hb := portWork_eq_zero_iff.1 hwork
    refine ⟨1, _, core_run_cons (wait_idle hagenda hb) 0, rfl, ?_, ?_⟩
    · cases p <;> exact hb
    · have hstatus : (s.status p).toNat = _ := statusWord_toNat _ _ _ _
      simp only [hstatus, hb, Bool.toNat_false]
      omega
  | succ n ih =>
    have hb : s.busy p = true := by
      rw [← Bool.not_eq_false, ← portWork_eq_zero_iff, hwork]
      exact n.succ_ne_zero
    obtain ⟨t, hrun, hag, hmw', hplat, -, hport⟩ := wait_round hagenda hb hmw
    obtain ⟨u, hu⟩ := Option.ne_none_iff_exists'.1 (h.engineStep_ne_none_of_busy hadmit hb)
    have hdone : portWork (t.port p) + 1 = portWork (s.port p) := by
      rw [hport, engineTurn_some hu, engineStep_portWork hu]
    obtain ⟨m, v, hrest, hv⟩ := ih (run_keeps (fun _ _ => Inv.step_next) h hrun) (by rwa [hplat]) hag hmw' (by omega)
    exact ⟨3 + m, v, (core_run_add hrun m).trans hrest, hv⟩

/-- Settles O36: `exists_run_to_wait_end`, for the work there is. -/
theorem waitEndsWithThePortIdle : Obligations.WaitEndsWithThePortIdle :=
  fun _ _ _ h hadmit hagenda hmw => exists_run_to_wait_end _ h hadmit hagenda hmw rfl

/-! ### `wait` on a stuck port (60_exceptions.md R226) -/

/-- The loop on stuck port `p`, with no other agent's step to fall into it: the next poll is due now, or once the
engines have had the turns between two polls. -/
structure Polling (p : Port) (rest : List Event) (s : State) : Prop where
  stuck     : Stuck p s
  meanwhile : s.meanwhile = []
  agenda    : ∃ turns, turns <:+ [.engine .P, .engine .C] ∧ s.agenda = turns ++ .wait p :: rest

theorem Polling.step_next (h : Polling p rest s) : ∃ t, step s = .next t ∧ Polling p rest t := by
  obtain ⟨hstuck, hmw, turns, hturns, hagenda⟩ := h
  cases turns with
  | nil =>
    exact ⟨_, wait_busy hagenda hstuck.1 hmw, hstuck.of_eq (by cases p <;> rfl) rfl rfl, hmw,
      [.engine .P, .engine .C], List.suffix_rfl, rfl⟩
  | cons e turns =>
    obtain ⟨q, rfl⟩ : ∃ q, e = .engine q := by
      have hmem := hturns.subset List.mem_cons_self
      simp only [List.mem_cons, List.not_mem_nil, or_false] at hmem
      exact hmem.elim (fun h => ⟨_, h⟩) fun h => ⟨_, h⟩
    obtain ⟨t, hturn, hag, hmw', -⟩ := step_turn hagenda
    obtain hstuck' | ⟨⟨_, hreset⟩, -⟩ := hstuck.step_next hturn
    · exact ⟨_, hturn, hstuck', hmw'.trans hmw, turns, (List.suffix_cons _ _).trans hturns, hag⟩
    · cases hagenda.symm.trans hreset

theorem Polling.run_next (h : Polling p rest s) (n : Nat) : ∃ t, core.run n s = .next t ∧ Polling p rest t := by
  induction n generalizing s with
  | zero => exact ⟨s, rfl, h⟩
  | succ n ih =>
    obtain ⟨u, hu, hpolling⟩ := h.step_next
    obtain ⟨t, ht, hpolling'⟩ := ih hpolling
    exact ⟨t, (core_run_cons hu n).trans ht, hpolling'⟩

theorem Inv.n_le_cap (h : Inv s) (hx : (s.port p).xfer = some x) : x.n ≤ s.buf.cap.toNat := by
  obtain ⟨hcfg, hfl, -⟩ := h.inFlight hx
  cases p with
  | P =>
    obtain ⟨-, hroom⟩ := hfl
    exact (Nat.le_add_right _ _).trans hroom
  | C =>
    obtain ⟨-, hn⟩ := hfl
    exact hn.trans (h.configured hcfg).occ_le

/-- The count a transfer reports fits RESULT. -/
theorem Inv.toNat_ofNat_n (h : Inv s) (hx : (s.port p).xfer = some x) : (BitVec.ofNat 32 x.n).toNat = x.n :=
  Nat.mod_eq_of_lt ((h.n_le_cap hx).trans_lt s.buf.cap.isLt)

/-- Every access a transfer still has to make is admitted. -/
def RestAdmitted (s : State) (y : Xfer) : Prop :=
  ∀ k kind, y.k ≤ k → k < y.B → s.plat.memAdmit (addrAdd y.ext k) kind = true ∧
    s.plat.memAdmit (s.backingAddr (backingOffset y k)) kind = true

theorem RestAdmitted.copied (h : RestAdmitted s y) (hplat : t.plat = s.plat) (hbase : t.buf.base = s.buf.base) :
    RestAdmitted t { y with k := y.k + 1 } := by
  intro k kind hk hkB
  rw [hplat, State.backingAddr, hbase]
  exact h k kind (Nat.le_of_succ_le hk) hkB

theorem RestAdmitted.next_admitted (h : RestAdmitted s y) (q : Port) (hk : y.k < y.B) :
    s.plat.memAdmit (sourceAddr q s y y.k) .read = true ∧ s.plat.memAdmit (destAddr q s y y.k) .write = true := by
  cases q with
  | P => exact ⟨(h _ _ le_rfl hk).1, (h _ _ le_rfl hk).2⟩
  | C => exact ⟨(h _ _ le_rfl hk).2, (h _ _ le_rfl hk).1⟩

/-- A round of the loop on a stuck port leaves it stuck, and gives the other engine its turn. -/
theorem Stuck.wait_round (h : Stuck p s) (hagenda : s.agenda = .wait p :: rest) (hmw : s.meanwhile = []) :
    ∃ t : State, core.run 3 s = .next t ∧ t.agenda = .wait p :: rest ∧ t.meanwhile = [] ∧ t.plat = s.plat ∧
      t.buf.base = s.buf.base ∧ Stuck p t ∧ t.port p.other = (engineTurn p.other s).port p.other := by
  obtain ⟨t, hrun, hag, hmw', hplat, hbase, hport⟩ := Machine.wait_round hagenda h.1 hmw
  exact ⟨t, hrun, hag, hmw', hplat, hbase, h.of_eq (by rw [hport, engineTurn_none h.2]) hplat hbase, hport p.other⟩

/-- While a `wait` hangs on one port, each round does one step of the other port's transfer. -/
theorem exists_run_to_other_end (n : Nat) (h : Inv s) (hagenda : s.agenda = .wait p :: rest) (hstuck : Stuck p s)
    (hmw : s.meanwhile = []) (hy : (s.port p.other).xfer = some y) (hadmit : RestAdmitted s y) (hn : y.B - y.k = n) :
    ∃ m t, core.run m s = .next t ∧ Stuck p t ∧ t.agenda = .wait p :: rest ∧ t.busy p.other = false ∧
      (t.port p.other).result.toNat = y.n := by
  induction n generalizing s y with
  | zero =>
    obtain ⟨t, hrun, hag, -, -, -, hstuck', hport⟩ := hstuck.wait_round hagenda hmw
    obtain ⟨hdir, hk⟩ := h.record hy
    have hcomplete := engineStep_complete hy hdir (by omega)
    have hother : t.port p.other = { s.port p.other with xfer := none, result := BitVec.ofNat 32 y.n } := by
      rw [hport, engineTurn_some hcomplete, port_completedState_same]
    refine ⟨3, t, hrun, hstuck', hag, ?_, ?_⟩
    · rw [busy_eq_false_iff, hother]
    · rw [hother]
      exact h.toNat_ofNat_n hy
  | succ n ih =>
    obtain ⟨t, hrun, hag, hmw', hplat, hbase, hstuck', hport⟩ := hstuck.wait_round hagenda hmw
    obtain ⟨hdir, -⟩ := h.record hy
    have hk : y.k < y.B := by omega
    obtain ⟨hsrc, hdst⟩ := hadmit.next_admitted p.other hk
    have hcopy := engineStep_copy hy hdir hk hsrc hdst
    have hother : (t.port p.other).xfer = some { y with k := y.k + 1 } := by
      rw [hport, engineTurn_some hcopy, port_copiedState_same]
    obtain ⟨m, v, hrest, hv⟩ := ih (run_keeps (fun _ _ => Inv.step_next) h hrun) hag hstuck' hmw' hother
      (hadmit.copied hplat hbase) (by simp only; omega)
    exact ⟨3 + m, v, (core_run_add hrun m).trans hrest, hv⟩

/-- A poll, the reset that falls into the loop, and the poll that then ends it (log 19). -/
theorem run_wait_reset {later : List Event} (hagenda : s.agenda = .wait p :: rest) (hb : s.busy p = true)
    (hmw : s.meanwhile = .reset :: later) :
    ∃ t, core.run 3 s = .next t ∧ t.agenda = rest ∧ t.meanwhile = later ∧ t.busy p = false := by
  have hidle := busy_hardwareReset { s with readData := s.status p, meanwhile := later, agenda := .wait p :: rest } p
  rw [core_run_cons (wait_busy_meanwhile hagenda hb hmw), core_run_cons (step_reset rfl),
    core_run_cons (wait_idle rfl hidle)]
  exact ⟨_, rfl, rfl, rfl, by cases p <;> rfl⟩

/-- Settles O37: `Polling` is kept by every step; the rounds serve the other engine; a reset idles the port. -/
theorem waitOnAStuckPortHangsUntilReset : Obligations.WaitOnAStuckPortHangsUntilReset := by
  refine fun p s rest hagenda hstuck => ⟨fun hmw n => ?_,
    fun hmw h y hy hadmit => exists_run_to_other_end _ h hagenda hstuck hmw hy hadmit rfl,
    fun later hmw => run_wait_reset hagenda hstuck.1 hmw⟩
  have hpolling : Polling p rest s := ⟨hstuck, hmw, [], List.nil_suffix, hagenda⟩
  obtain ⟨t, hrun, hstuck', -, turns, -, hag⟩ := hpolling.run_next n
  exact ⟨t, hrun, hstuck', by simp [hag]⟩

end Sys2Proof.Machine
end

section
namespace Sys2Proof.Machine

/-! ### A transfer run to its end (41_transfer.md sections 1 to 3) -/

variable {p : Port} {s t u : State} {x : Xfer} {m : Nat} {rest : List Event}

/-- The bytes a transfer reads and the bytes it writes are apart, and no byte is written twice. -/
structure Apart (p : Port) (s : State) (x : Xfer) : Prop where
  source_ne_dest : ∀ i j, i < x.B → j < x.B → sourceAddr p s x i ≠ destAddr p s x j
  dest_inj       : ∀ i j, i < x.B → j < x.B → destAddr p s x i = destAddr p s x j → i = j

/-- The bytes of `x` from its `k` up to `hi` have been copied between `s` and `t`: no other byte has changed, and they
have arrived where the transfer is apart. -/
structure Moved (p : Port) (s : State) (x : Xfer) (hi : Nat) (t : State) : Prop where
  frame   : ∀ a, (∀ j, x.k ≤ j → j < hi → a ≠ destAddr p s x j) → t.readByte a = s.readByte a
  arrived : Apart p s x → ∀ j, x.k ≤ j → j < hi → t.readByte (destAddr p s x j) = s.readByte (sourceAddr p s x j)

/-- Engine `p` has taken `m` copy steps of `x` between `s` and `t`. -/
structure Copied (p : Port) (s : State) (x : Xfer) (m : Nat) (t : State) : Prop where
  port  : t.port p = { s.port p with xfer := some { x with k := x.k + m } }
  buf   : t.buf = s.buf
  plat  : t.plat = s.plat
  moved : Moved p s x (x.k + m) t

/-- Engine `p` has taken the transfer `x` from `s` to its end in `t`. -/
structure Transferred (p : Port) (s : State) (x : Xfer) (t : State) : Prop where
  port  : t.port p = { s.port p with xfer := none, result := BitVec.ofNat 32 x.n }
  buf   : t.buf = completedBuffer p s x
  plat  : t.plat = s.plat
  moved : Moved p s x x.B t

/-- The addresses of a transfer depend on BASE and its plan, and not on how far it has come. -/
theorem sourceAddr_congr (hbuf : t.buf = s.buf) (k j : Nat) :
    sourceAddr p t { x with k := k } j = sourceAddr p s x j := by
  cases p
  · rfl
  · rw [sourceAddr, State.backingAddr, hbuf]
    rfl

theorem destAddr_congr (hbuf : t.buf = s.buf) (k j : Nat) : destAddr p t { x with k := k } j = destAddr p s x j := by
  cases p
  · rw [destAddr, State.backingAddr, hbuf]
    rfl
  · rfl

/-- One more copy step moves one more byte. -/
theorem Moved.copiedState (h : Moved p s x (x.k + m) t) (hbuf : t.buf = s.buf) (hm : x.k + m < x.B) :
    Moved p s x (x.k + (m + 1)) (copiedState p t { x with k := x.k + m }) := by
  have hwritten : (Machine.copiedState p t { x with k := x.k + m }).readByte (destAddr p s x (x.k + m)) =
      t.readByte (sourceAddr p s x (x.k + m)) := by
    rw [← sourceAddr_congr hbuf (x.k + m), ← destAddr_congr hbuf (x.k + m)]
    exact readByte_copiedState_dest
  have hkept {a : Word} (ha : a ≠ destAddr p s x (x.k + m)) :
      (Machine.copiedState p t { x with k := x.k + m }).readByte a = t.readByte a := by
    rw [← destAddr_congr hbuf (x.k + m)] at ha
    exact readByte_copiedState_of_ne ha
  refine ⟨fun a ha => ?_, fun hapart j hlo hhi => ?_⟩
  · rw [hkept (ha _ (Nat.le_add_right _ _) (by omega)), h.frame a fun j hlo hhi => ha j hlo (by omega)]
  · by_cases hj : j = x.k + m
    · subst hj
      rw [hwritten, h.frame _ fun i _ hi => hapart.source_ne_dest _ _ hm (by omega)]
    · rw [hkept fun heq => hj (hapart.dest_inj _ _ (by omega) hm heq), h.arrived hapart j hlo (by omega)]

/-- At its turns, an engine whose accesses are admitted takes its copy steps one by one. -/
theorem run_copies (hx : (s.port p).xfer = some x) (hdir : x.dir = engineDir p)
    (hadmit : ∀ a kind, s.plat.memAdmit a kind = true) (hm : x.k + m ≤ x.B)
    (hagenda : s.agenda = List.replicate m (.engine p) ++ rest) :
    ∃ t : State, core.run m s = .next t ∧ t.agenda = rest ∧ Copied p s x m t := by
  induction m generalizing rest with
  | zero =>
    refine ⟨s, rfl, hagenda, ?_, rfl, rfl, fun _ _ => rfl, fun _ j hlo hhi => absurd hhi hlo.not_gt⟩
    rw [Nat.add_zero, ← hx]
  | succ m ih =>
    rw [List.replicate_succ', List.append_assoc] at hagenda
    obtain ⟨u, hrun, hag, hport, hbuf, hplat, hmoved⟩ := ih (Nat.le_of_succ_le hm) hagenda
    have hcopy : engineStep p { u with agenda := rest } =
        some (copiedState p { u with agenda := rest } { x with k := x.k + m }) :=
      engineStep_copy (by rw [port_with_agenda, hport]) hdir hm (hplat ▸ hadmit _ _) (hplat ▸ hadmit _ _)
    have hstep := step_engine hag hcopy
    have hu : Moved p s x (x.k + m) { u with agenda := rest } := ⟨hmoved.frame, hmoved.arrived⟩
    refine ⟨_, (core_run_add hrun 1).trans (core_run_cons hstep 0), agenda_copiedState, ?_,
      buf_copiedState.trans hbuf, plat_copiedState.trans hplat, hu.copiedState hbuf hm⟩
    rw [port_copiedState_same, port_with_agenda, hport]
    rfl

/-- From a state of the invariant with nothing withheld, B - k + 1 turns take a transfer to its end. -/
theorem Inv.run_transfer (h : Inv s) (hx : (s.port p).xfer = some x)
    (hadmit : ∀ a kind, s.plat.memAdmit a kind = true)
    (hagenda : s.agenda = List.replicate (x.B - x.k + 1) (.engine p) ++ rest) :
    ∃ t : State, core.run (x.B - x.k + 1) s = .next t ∧ t.agenda = rest ∧ Transferred p s x t := by
  obtain ⟨hdir, hk⟩ := h.record hx
  rw [List.replicate_succ', List.append_assoc] at hagenda
  obtain ⟨u, hrun, hag, hport, hbuf, hplat, hmoved⟩ := run_copies hx hdir hadmit (by omega) hagenda
  rw [Nat.add_sub_cancel' hk] at hport hmoved
  have hcomplete : engineStep p { u with agenda := rest } =
      some (completedState p { u with agenda := rest } { x with k := x.B }) :=
    engineStep_complete (by rw [port_with_agenda, hport]) hdir rfl
  refine ⟨_, (core_run_add hrun 1).trans (core_run_cons (step_engine hag hcomplete) 0), agenda_completedState, ?_, ?_,
    plat_completedState.trans hplat, ?_⟩
  · rw [port_completedState_same, port_with_agenda, hport]
  · rw [buf_completedState]
    cases p <;> simp only [completedBuffer, hbuf, hplat]
  · refine ⟨fun a ha => ?_, fun hapart j hlo hhi => ?_⟩
    · rw [readByte_congr mem_completedState]
      exact hmoved.frame a ha
    · rw [readByte_congr mem_completedState]
      exact hmoved.arrived hapart j hlo hhi

/-- A transfer from its first byte on takes B + 1 turns. -/
theorem Inv.run_fresh_transfer (h : Inv s) (hx : (s.port p).xfer = some x) (hk : x.k = 0)
    (hadmit : ∀ a kind, s.plat.memAdmit a kind = true)
    (hagenda : s.agenda = List.replicate (x.B + 1) (.engine p) ++ rest) :
    ∃ t : State, core.run (x.B + 1) s = .next t ∧ t.agenda = rest ∧ Transferred p s x t := by
  rw [← Nat.sub_zero x.B, ← hk] at hagenda ⊢
  exact h.run_transfer hx hadmit hagenda

/-- Settles O31: `run_copies` for the copy steps, which leave the port busy however many are taken, and
`Inv.run_transfer` for all of them and the completion. -/
theorem transferTakesItsCopyStepsAndOneMore : Obligations.TransferTakesItsCopyStepsAndOneMore := by
  intro p s x rest h hx hadmit hagenda
  obtain ⟨hdir, hk⟩ := h.record hx
  refine ⟨fun m hm => ?_, ?_⟩
  · have hsplit : x.B - x.k + 1 = m + (x.B - x.k + 1 - m) := by omega
    rw [hsplit, List.replicate_add, List.append_assoc] at hagenda
    obtain ⟨u, hrun, -, hcopied⟩ := run_copies hx hdir hadmit (by omega) hagenda
    exact ⟨u, hrun, (busy_eq_true_iff u p).2 ⟨_, by rw [hcopied.port]⟩⟩
  · obtain ⟨t, hrun, hag, hdone⟩ := h.run_transfer hx hadmit hagenda
    obtain ⟨-, -, herr⟩ := h.inFlight hx
    refine ⟨t, hrun, hag, (busy_eq_false_iff t p).2 (by rw [hdone.port]), ?_, ?_⟩ <;> rw [hdone.port]
    · exact h.toNat_ofNat_n hx
    · exact herr

/-! ### Ring order (41_transfer.md section 3) -/

/-- Byte `k` of a transfer lies `k` bytes after its cursor's slot, around the ring. -/
theorem Planned.backingOffset_ring {b : Buffer} {dir : Dir} {pos : Word} {k : Nat} (h : Planned b dir pos x)
    (hpow : isPow2 b.cap.toNat = true) (hB : x.B ≤ b.capBytes) (hk : k < x.B) :
    backingOffset x k = (pos.toNat % b.cap.toNat * b.esize.toNat + k) % b.capBytes := by
  obtain ⟨i, hi⟩ := (isPow2_iff _).1 hpow
  rw [h.backingOffset_eq_off_add_mod hB hk, h.off_eq, Buffer.phys, hi, Nat.and_two_pow_sub_one_eq_mod]

/-- In a state of the invariant, a transfer whose external bytes are apart from its backing bytes is apart: neither
address sequence meets itself. -/
theorem Inv.apart (h : Inv s) (hx : (s.port p).xfer = some x)
    (hne : ∀ i j, i < x.B → j < x.B → addrAdd x.ext i ≠ s.backingAddr (backingOffset x j)) : Apart p s x := by
  obtain ⟨hcfg, hfl, -⟩ := h.inFlight hx
  have hfit := (h.configured hcfg).bytes_fit
  have hB := h.B_le_capBytes hx
  cases p with
  | P =>
    refine ⟨hne, fun i j hi hj heq => hfl.1.backingOffset_inj hB hi hj ?_⟩
    have hilt := h.backingOffset_lt (p := .P) hx hi
    have hjlt := h.backingOffset_lt (p := .P) hx hj
    exact addrAdd_inj (by omega) (by omega) heq
  | C => exact ⟨fun i j hi hj => (hne j i hj hi).symm, fun i j hi hj heq => addrAdd_inj (by omega) (by omega) heq⟩

/-- Settles O32: `Inv.run_fresh_transfer` on port P, whose destinations are the ring's bytes in order. -/
theorem enqStoresTheSourceInRingOrder : Obligations.EnqStoresTheSourceInRingOrder := by
  intro s x rest h hx hk hadmit hagenda slot hne
  obtain ⟨hcfg, ⟨hplan, -⟩, -⟩ := h.inFlight (p := .P) hx
  have hslot {j : Nat} (hj : j < x.B) : slot j = destAddr .P s x j := congrArg s.backingAddr
    (hplan.backingOffset_ring (h.configured hcfg).cap_pow2 (h.B_le_capBytes (p := .P) hx) hj).symm
  have hapart : Apart .P s x := h.apart (p := .P) hx fun i j hi hj => ne_of_ne_of_eq (hne i j hi hj) (hslot hj)
  obtain ⟨t, hrun, hag, -, hbuf, -, hmoved⟩ := h.run_fresh_transfer (p := .P) hx hk hadmit hagenda
  refine ⟨t, hrun, hag, ?_, fun j hj => ?_, fun a ha => hmoved.frame a fun j _ hj => hslot hj ▸ ha j hj⟩
  · rw [hbuf]
    exact addW_toNat s.plat.W_le _ _
  · rw [hslot hj]
    exact hmoved.arrived hapart j (hk ▸ Nat.zero_le j) hj

/-- Settles O33: `Inv.run_fresh_transfer` on port C, whose sources are the ring's bytes in order. -/
theorem deqDeliversInRingOrder : Obligations.DeqDeliversInRingOrder := by
  intro s x rest h hx hk hadmit hagenda slot hne
  obtain ⟨hcfg, ⟨hplan, -⟩, -⟩ := h.inFlight (p := .C) hx
  have hslot {j : Nat} (hj : j < x.B) : slot j = sourceAddr .C s x j := congrArg s.backingAddr
    (hplan.backingOffset_ring (h.configured hcfg).cap_pow2 (h.B_le_capBytes (p := .C) hx) hj).symm
  have hapart : Apart .C s x := h.apart (p := .C) hx fun i j hi hj => ne_of_ne_of_eq (hne i j hi hj) (hslot hj)
  obtain ⟨t, hrun, hag, -, hbuf, -, hmoved⟩ := h.run_fresh_transfer (p := .C) hx hk hadmit hagenda
  refine ⟨t, hrun, hag, ?_, fun j hj => ?_, fun a ha => hmoved.frame a fun j _ hj => ha j hj⟩
  · rw [hbuf]
    exact addW_toNat s.plat.W_le _ _
  · rw [hslot hj]
    exact hmoved.arrived hapart j (hk ▸ Nat.zero_le j) hj

/-- Settles O34: the ENQ starts a plan for exactly the free space, `Inv.run_transfer` takes it to its end, and the
occupancy, below 2^W, rises by what was free. -/
theorem truncatedEnqFillsTheBuffer : Obligations.TruncatedEnqFillsTheBuffer := by
  intro s rest h hcfg hb hadmit hmore hagenda
  have hstep := (stepRunsTheDecodedCommand .P 0x00000002 (.enq .P) s _ (decode_encode (.enq .P)) hagenda).trans
    (exec_enq_starts hb hcfg)
  have hstart := h.step_next hstep
  have hn : min s.portP.arg1.toNat s.free = s.free := min_eq_right hmore.le
  obtain ⟨t, hrun, hag, hport, hbuf, hplat, -⟩ := hstart.run_fresh_transfer (p := .P) (rest := rest) rfl rfl hadmit (by
    rw [agenda_setPort]
    exact congrArg (fun n => List.replicate (n * s.buf.esize.toNat + 1) (Event.engine .P) ++ rest) hn.symm)
  have hresult := hstart.toNat_ofNat_n (p := .P) rfl
  have hlen : (min s.portP.arg1.toNat s.free) * s.buf.esize.toNat + 2 = s.free * s.buf.esize.toNat + 2 := by rw [hn]
  have hroom : s.occ + s.free = s.buf.cap.toNat := Nat.add_sub_cancel' (h.configured hcfg).occ_le
  refine ⟨t, hlen ▸ (core_run_cons hstep _).trans hrun, hag, (busy_eq_false_iff t .P).2 (by rw [hport]), ?_, ?_, ?_⟩
  · exact congrArg PortRegs.err hport
  · rw [show t.portP.result = _ from congrArg PortRegs.result hport]
    exact hresult.trans hn
  · have hocc : t.occ = subW s.plat.W (addW s.plat.W s.buf.wc (min s.portP.arg1.toNat s.free)) s.buf.rc := by
      rw [State.occ, hbuf, hplat]
      rfl
    have hlt : subW s.plat.W s.buf.wc s.buf.rc + s.free < 2 ^ s.plat.W := hroom.trans_lt (h.configured hcfg).cap_lt
    rw [hocc, hn, subW_addW_left s.plat.W_le _ _ hlt]
    exact hroom

end Sys2Proof.Machine
end

section
namespace Sys2Proof.Machine

/-! ### Host accesses (10_state.md R34, R35, 00_scope.md R13) -/

variable {s : State} {off : CsrOffset} {a : Word} {rest : List Event}

/-- Where no register is, the offset is none of the map's. -/
theorem ne_of_csrAt_none (h : csrAt off = none) : off ≠ 0x04 ∧ off ≠ 0x08 ∧ off ≠ 0x0C ∧ off ≠ 0x10 ∧ off ≠ 0x14 ∧
    off ≠ 0x24 ∧ off ≠ 0x28 ∧ off ≠ 0x2C ∧ off ≠ 0x30 ∧ off ≠ 0x34 ∧ off ≠ 0x40 ∧ off ≠ 0x44 := by
  have hne (c : Csr) : off ≠ c.offset := by
    rintro rfl
    cases (csrAt_offset c).symm.trans h
  exact ⟨hne (.arg0 .P), hne (.arg1 .P), hne (.arg2 .P), hne (.result .P), hne (.status .P), hne (.arg0 .C),
    hne (.arg1 .C), hne (.arg2 .C), hne (.result .C), hne (.status .C), hne .wcur, hne .rcur⟩

/-- The map of R34, read: the register's value at each of its offsets, and 0 at every other. -/
theorem csrValueAt_map (s : State) (off : CsrOffset) : csrValueAt s off =
    if off = 0x04 then s.portP.arg0 else if off = 0x08 then s.portP.arg1 else if off = 0x0C then s.portP.arg2
    else if off = 0x10 then s.portP.result else if off = 0x14 then s.status .P
    else if off = 0x24 then s.portC.arg0 else if off = 0x28 then s.portC.arg1 else if off = 0x2C then s.portC.arg2
    else if off = 0x30 then s.portC.result else if off = 0x34 then s.status .C
    else if off = 0x40 then s.buf.wc else if off = 0x44 then s.buf.rc else 0 := by
  cases hc : csrAt off with
  | some c =>
    obtain rfl := csrAt_eq_some hc
    rw [csrValueAt, hc]
    cases c with
    | wcur | rcur => rfl
    | cmd p | arg0 p | arg1 p | arg2 p | result p | status p => cases p <;> rfl
  | none => simp only [csrValueAt, hc, ne_of_csrAt_none hc, if_false]

theorem csrAccessAdmitted_word (haligned : off.toNat % 4 = 0) : csrAccessAdmitted .word off = true := by
  simp [csrAccessAdmitted, haligned]

/-- Settles O38: an aligned 32-bit read is admitted, and `csrValueAt_map` is what it returns. -/
theorem csrReadsFollowTheMap : Obligations.CsrReadsFollowTheMap := by
  intro s off rest hagenda haligned
  rw [step_cons hagenda, perform, hostCsrRead, if_pos (csrAccessAdmitted_word haligned), csrValueAt_map]
  simp only [status_with_agenda]

/-- Settles O39: an aligned 32-bit write is admitted; the register it reaches, if any, is an ARG register, which takes
the value, or one that ignores it. -/
theorem csrWritesFollowTheMap : Obligations.CsrWritesFollowTheMap := by
  intro s off v rest hagenda haligned hcmdP hcmdC
  rw [step_cons hagenda, perform, hostCsrWrite, if_pos (csrAccessAdmitted_word haligned)]
  cases hc : csrAt off with
  | some c =>
    obtain rfl := csrAt_eq_some hc
    cases c with
    | cmd p =>
      cases p
      · exact absurd rfl hcmdP
      · exact absurd rfl hcmdC
    | wcur | rcur => rfl
    | arg0 p | arg1 p | arg2 p | result p | status p => cases p <;> rfl
  | none => simp only [ne_of_csrAt_none hc, if_false]

theorem csrAccessAdmitted_false {width : Width} (hform : ¬ (width = .word ∧ off.toNat % 4 = 0)) :
    csrAccessAdmitted width off = false := by
  rwa [csrAccessAdmitted, ← Bool.decide_and, decide_eq_false_iff_not]

/-- The window is the 128 bytes at CSR_BASE. -/
theorem inWindow_csrBase_add (pl : Platform) (off : CsrOffset) :
    pl.inWindow (pl.csrBase + off.setWidth 32) = true := by
  have hoff : pl.csrBase + off.setWidth 32 - pl.csrBase = off.setWidth 32 := by
    rw [BitVec.add_comm, BitVec.add_sub_cancel]
  have hlt := off.isLt
  simp only [Platform.inWindow, hoff, BitVec.toNat_setWidth, decide_eq_true_eq]
  omega

/-- Settles O40: the form check of the window, and the window check of byte accesses. -/
theorem otherCsrAccessesAreRefused : Obligations.OtherCsrAccessesAreRefused := by
  refine ⟨fun s width off rest hform => ⟨fun hagenda => ?_, fun v hagenda => ?_⟩,
    fun s off rest => ⟨fun hagenda => ?_, fun v hagenda => ?_⟩⟩ <;> rw [step_cons hagenda, perform]
  · rw [hostCsrRead, csrAccessAdmitted_false hform, if_neg Bool.false_ne_true]
  · rw [hostCsrWrite, csrAccessAdmitted_false hform, if_neg Bool.false_ne_true]
  · exact if_pos (inWindow_csrBase_add s.plat off)
  · exact if_pos (inWindow_csrBase_add s.plat off)

/-- Settles O41: outside the window the byte access is performed, and a write touches its byte alone. -/
theorem hostByteAccesses : Obligations.HostByteAccesses := by
  intro s a rest hout
  have hwindow : ¬ s.plat.inWindow a = true := by
    rw [Platform.inWindow, decide_eq_true_eq]
    exact hout.not_gt
  refine ⟨fun hagenda => ?_, fun v hagenda => ?_⟩
  · rw [step_cons hagenda, perform, hostMemRead, if_neg hwindow]
    rfl
  · refine ⟨State.writeByte { s with agenda := rest } a v, ?_, readByte_writeByte_same _ _ _,
      fun b hb => readByte_writeByte_other _ _ hb, rfl, rfl, rfl, rfl, rfl, rfl, rfl⟩
    rw [step_cons hagenda, perform, hostMemWrite, if_neg hwindow]

end Sys2Proof.Machine
end

section
namespace Sys2Proof.Machine

/-! ### Bytes leave in the order in which they entered (41_transfer.md R160)

The bytes that entered are numbered from 0, and byte `i` stays at ring offset `i` mod CAPB until it has left. -/

variable {p : Port} {s t u : State} {x y : Xfer} {w : Word} {ins outs : List Byte} {read read' : Nat}

/-- The bytes a port has copied of its transfer in flight. -/
def progress (r : PortRegs) : Nat :=
  match r.xfer with
  | none => 0
  | some x => x.k

theorem progress_of_xfer {r : PortRegs} (hx : r.xfer = some x) : progress r = x.k := by simp only [progress, hx]

/-- The host address of the `i`-th byte that enters the ring. -/
def ringAddr (s : State) (i : Nat) : Word := s.backingAddr (i % s.buf.capBytes)

/-- From an empty ring, `ins` have entered and `outs` have left, the last of `read` whole elements published by DEQs:
what has left is what entered first, and what has not left is still in place. -/
structure Fifo (s : State) (ins outs : List Byte) (read : Nat) : Prop where
  inv      : Inv s
  cfg      : s.buf.cfg = true
  rc       : s.buf.rc.toNat ≡ read [MOD s.buf.cap.toNat]
  ins_len  : ins.length = (read + s.occ) * s.buf.esize.toNat + progress s.portP
  outs_len : outs.length = read * s.buf.esize.toNat + progress s.portC
  first    : outs <+: ins
  queued   : ∀ i b, outs.length ≤ i → ins[i]? = some b → s.readByte (ringAddr s i) = b

theorem Fifo.configured (h : Fifo s ins outs read) : Configured s := h.inv.configured h.cfg

theorem Configured.capBytes_pos (h : Configured s) : 0 < s.buf.capBytes := Nat.mul_pos h.cap_pos h.esize_pos

theorem Configured.inStore_ringAddr (h : Configured s) (i : Nat) : InStore s (ringAddr s i) :=
  ⟨_, Nat.mod_lt _ h.capBytes_pos, rfl⟩

/-- Bytes less than CAPB apart lie at different addresses. -/
theorem Configured.ringAddr_ne (h : Configured s) {i j : Nat} (hij : i < j) (hj : j < i + s.buf.capBytes) :
    ringAddr s i ≠ ringAddr s j := by
  have hfit := h.bytes_fit
  have hi' := Nat.mod_lt i h.capBytes_pos
  have hj' := Nat.mod_lt j h.capBytes_pos
  intro heq
  have hmod : i ≡ j [MOD s.buf.capBytes] := addrAdd_inj (by omega) (by omega) heq
  have hle := Nat.le_of_dvd (by omega) ((Nat.modEq_iff_dvd' hij.le).1 hmod)
  omega

/-- A byte of a transfer in flight has the ring offset that its number from the cursor's position gives. -/
theorem Planned.backingOffset_eq_mod {b : Buffer} {dir : Dir} {pos : Word} {k c : Nat} (h : Planned b dir pos x)
    (hpow : isPow2 b.cap.toNat = true) (hB : x.B ≤ b.capBytes) (hk : k < x.B) (hpos : pos.toNat ≡ c [MOD b.cap.toNat]) :
    backingOffset x k = (c * b.esize.toNat + k) % b.capBytes := by
  have hmod := (h.backingOffset_modEq hpow hB hk).trans ((hpos.mul_right' b.esize.toNat).add_right k)
  rw [← Nat.mod_eq_of_lt (h.backingOffset_lt hB hk)]
  exact hmod

/-- The next byte ENQ writes is the next to enter. -/
theorem Fifo.destAddr_eq (h : Fifo s ins outs read) (hx : s.portP.xfer = some x) (hk : x.k < x.B) :
    destAddr .P s x x.k = ringAddr s ins.length := by
  obtain ⟨-, ⟨hplan, -⟩, -⟩ := h.inv.inFlight (p := .P) hx
  have hwc : s.buf.wc.toNat ≡ read + s.occ [MOD s.buf.cap.toNat] :=
    h.configured.rc_add_occ_modEq.symm.trans (h.rc.add_right _)
  rw [ringAddr, h.ins_len, progress_of_xfer hx]
  exact congrArg s.backingAddr
    (hplan.backingOffset_eq_mod h.configured.cap_pow2 (h.inv.B_le_capBytes (p := .P) hx) hk hwc)

/-- The next byte DEQ reads is the next to leave. -/
theorem Fifo.sourceAddr_eq (h : Fifo s ins outs read) (hy : s.portC.xfer = some y) (hk : y.k < y.B) :
    sourceAddr .C s y y.k = ringAddr s outs.length := by
  obtain ⟨-, ⟨hplan, -⟩, -⟩ := h.inv.inFlight (p := .C) hy
  rw [ringAddr, h.outs_len, progress_of_xfer hy]
  exact congrArg s.backingAddr
    (hplan.backingOffset_eq_mod h.configured.cap_pow2 (h.inv.B_le_capBytes (p := .C) hy) hk h.rc)

/-- A byte that enters lands on no byte still queued: ENQ stays within the free space. -/
theorem Fifo.ins_lt (h : Fifo s ins outs read) (hx : s.portP.xfer = some x) (hk : x.k < x.B) :
    ins.length < outs.length + s.buf.capBytes := by
  obtain ⟨-, ⟨hplan, hroom⟩, -⟩ := h.inv.inFlight (p := .P) hx
  have hfit : (read + s.occ + x.n) * s.buf.esize.toNat ≤ (read + s.buf.cap.toNat) * s.buf.esize.toNat :=
    Nat.mul_le_mul_right _ (by omega)
  rw [Nat.add_mul _ x.n, ← hplan.B_eq, Nat.add_mul read s.buf.cap.toNat] at hfit
  rw [h.ins_len, h.outs_len, progress_of_xfer hx, Buffer.capBytes]
  omega

/-- A byte that leaves has entered: DEQ stays within the published elements. -/
theorem Fifo.outs_lt (h : Fifo s ins outs read) (hy : s.portC.xfer = some y) (hk : y.k < y.B) :
    outs.length < ins.length := by
  obtain ⟨-, ⟨hplan, hn⟩, -⟩ := h.inv.inFlight (p := .C) hy
  have hpublished : y.B ≤ s.occ * s.buf.esize.toNat := hplan.B_eq ▸ Nat.mul_le_mul_right _ hn
  rw [h.ins_len, h.outs_len, progress_of_xfer hy, Nat.add_mul]
  omega

/-- ENQ's copy step appends the byte it reads to those that entered. -/
theorem Fifo.enqCopied (h : Fifo s ins outs read) (hx : s.portP.xfer = some x) (hk : x.k < x.B) :
    Fifo (copiedState .P s x) (ins ++ [s.readByte (externalAddr x)]) outs read where
  inv := h.inv.copied (p := .P) hx hk _ _
  cfg := h.cfg
  rc := h.rc
  ins_len := by
    rw [List.length_append, h.ins_len, progress_of_xfer hx]
    rfl
  outs_len := h.outs_len
  first := h.first.trans (List.prefix_append _ _)
  queued i b hi hb := by
    have hring : ringAddr (copiedState .P s x) i = ringAddr s i := rfl
    rw [hring]
    obtain hlt | rfl | hgt := Nat.lt_trichotomy i ins.length
    · rw [List.getElem?_append_left hlt] at hb
      have hne : ringAddr s i ≠ ringAddr s ins.length :=
        h.configured.ringAddr_ne hlt ((h.ins_lt hx hk).trans_le (Nat.add_le_add_right hi _))
      rw [← h.destAddr_eq hx hk] at hne
      rw [readByte_copiedState_of_ne hne, h.queued i b hi hb]
    · rw [List.getElem?_concat_length, Option.some.injEq] at hb
      rw [← h.destAddr_eq hx hk, readByte_copiedState_dest]
      exact hb
    · rw [List.getElem?_eq_none (by simpa using hgt)] at hb
      cases hb

/-- DEQ's copy step delivers the first byte still queued. -/
theorem Fifo.deqCopied (h : Fifo s ins outs read) (hy : s.portC.xfer = some y) (hk : y.k < y.B)
    (hdst : ¬ InStore s (externalAddr y)) : Fifo (copiedState .C s y) ins
      (outs ++ [(copiedState .C s y).readByte (externalAddr y)]) read where
  inv := h.inv.copied (p := .C) hy hk _ _
  cfg := h.cfg
  rc := h.rc
  ins_len := h.ins_len
  outs_len := by
    rw [List.length_append, h.outs_len, progress_of_xfer hy]
    rfl
  first := by
    have hlt := h.outs_lt hy hk
    have hbyte : (copiedState .C s y).readByte (externalAddr y) = s.readByte (ringAddr s outs.length) :=
      h.sourceAddr_eq hy hk ▸ readByte_copiedState_dest (p := .C)
    rw [hbyte, h.queued _ _ le_rfl (List.getElem?_eq_getElem hlt)]
    obtain ⟨queue, rfl⟩ := h.first
    cases queue with
    | nil => simp at hlt
    | cons b queue => simp
  queued i b hi hb := by
    have hne : ringAddr s i ≠ externalAddr y := fun heq => hdst (heq ▸ h.configured.inStore_ringAddr i)
    have hle : outs.length ≤ i := (Nat.le_add_right _ _).trans (List.length_append ▸ hi)
    exact (readByte_copiedState_of_ne (p := .C) hne).trans (h.queued i b hle hb)

/-- What a step that copies no byte must keep: the configuration, the bytes of the store, and both counts. -/
theorem Fifo.without_copy (h : Fifo s ins outs read) (hinv : Inv t)
    (hconfig : t.buf.cfg = s.buf.cfg ∧ t.buf.base = s.buf.base ∧ t.buf.cap = s.buf.cap ∧ t.buf.esize = s.buf.esize)
    (hrc : t.buf.rc.toNat ≡ read' [MOD s.buf.cap.toNat])
    (hins : (read' + t.occ) * s.buf.esize.toNat + progress t.portP =
      (read + s.occ) * s.buf.esize.toNat + progress s.portP)
    (houts : read' * s.buf.esize.toNat + progress t.portC = read * s.buf.esize.toNat + progress s.portC)
    (hmem : ∀ a, InStore s a → t.readByte a = s.readByte a) : Fifo t ins outs read' := by
  obtain ⟨hcfg, hbase, hcap, hE⟩ := hconfig
  have hring (i : Nat) : ringAddr t i = ringAddr s i := by
    simp only [ringAddr, State.backingAddr, Buffer.capBytes, hbase, hcap, hE]
  refine ⟨hinv, hcfg.trans h.cfg, hcap ▸ hrc, ?_, ?_, h.first, fun i b hi hb => ?_⟩
  · rw [hE, hins, h.ins_len]
  · rw [hE, houts, h.outs_len]
  · rw [hring, hmem _ (h.configured.inStore_ringAddr i), h.queued i b hi hb]

/-- ENQ's completion turns the bytes copied into elements. -/
theorem Fifo.enqCompleted (h : Fifo s ins outs read) (hx : s.portP.xfer = some x) (hk : x.k = x.B) :
    Fifo (completedState .P s x) ins outs read := by
  obtain ⟨-, ⟨hplan, hroom⟩, -⟩ := h.inv.inFlight (p := .P) hx
  have hocc : (completedState .P s x).occ = s.occ + x.n := subW_addW_left s.plat.W_le s.buf.wc s.buf.rc
    (((Nat.add_comm _ _).trans_le hroom).trans_lt h.configured.cap_lt)
  refine h.without_copy (h.inv.enqCompleted hx) ⟨rfl, rfl, rfl, rfl⟩ h.rc ?_ rfl fun _ _ => rfl
  rw [hocc, progress_of_xfer hx, hk, hplan.B_eq, ← Nat.add_mul, ← Nat.add_assoc]
  rfl

/-- DEQ's completion turns the bytes delivered into elements. -/
theorem Fifo.deqCompleted (h : Fifo s ins outs read) (hy : s.portC.xfer = some y) (hk : y.k = y.B) :
    Fifo (completedState .C s y) ins outs (read + y.n) := by
  obtain ⟨-, ⟨hplan, hn⟩, -⟩ := h.inv.inFlight (p := .C) hy
  obtain ⟨i, hi⟩ := (isPow2_iff _).1 h.configured.cap_pow2
  have hdvd : s.buf.cap.toNat ∣ 2 ^ s.plat.W := hi ▸ two_pow_dvd_two_pow_W (hi ▸ h.configured.cap_le)
  have hocc : (completedState .C s y).occ = s.occ - y.n := subW_addW_right s.plat.W_le s.buf.wc s.buf.rc hn
  refine h.without_copy (h.inv.deqCompleted hy) ⟨rfl, rfl, rfl, rfl⟩
    (((addW_modEq s.plat.W_le s.buf.rc y.n).of_dvd hdvd).trans (h.rc.add_right _)) ?_ ?_ fun _ _ => rfl
  · rw [hocc, Nat.add_assoc, Nat.add_sub_cancel' hn]
    rfl
  · rw [progress_of_xfer hy, hk, hplan.B_eq, ← Nat.add_mul]
    rfl

/-! ### The steps that copy no byte -/

/-- A port's registers change without a byte copied: the record stays, or a fresh one is latched. -/
def NoByte (r r' : PortRegs) : Prop := r'.xfer = r.xfer ∨ (r.xfer = none ∧ ∃ x, r'.xfer = some x ∧ x.k = 0)

theorem NoByte.progress_eq {r r' : PortRegs} (h : NoByte r r') : progress r' = progress r := by
  obtain hx | ⟨hnone, x, hx, hk⟩ := h
  · simp only [progress, hx]
  · simp only [progress, hnone, hx, hk]

theorem copiedIn_eq_nil (h : NoByte s.portP t.portP ∨ t.portP.xfer = none) : copiedIn s t = [] := by
  rw [copiedIn]
  obtain (hx | ⟨hnone, -⟩) | hnone := h
  · rw [hx]
    cases s.portP.xfer <;> simp
  · rw [hnone]
  · rw [hnone]
    cases s.portP.xfer <;> rfl

theorem copiedOut_eq_nil (h : NoByte s.portC t.portC ∨ t.portC.xfer = none) : copiedOut s t = [] := by
  rw [copiedOut]
  obtain (hx | ⟨hnone, -⟩) | hnone := h
  · rw [hx]
    cases s.portC.xfer <;> simp
  · rw [hnone]
  · rw [hnone]
    cases s.portC.xfer <;> rfl

theorem copiedIn_of_copied (hx : s.portP.xfer = some x) (ht : t.portP.xfer = some { x with k := x.k + 1 }) :
    copiedIn s t = [s.readByte (externalAddr x)] := by
  rw [copiedIn, hx, ht]
  exact if_pos rfl

theorem copiedOut_of_copied (hx : s.portC.xfer = some x) (ht : t.portC.xfer = some { x with k := x.k + 1 }) :
    copiedOut s t = [t.readByte (externalAddr x)] := by
  rw [copiedOut, hx, ht]
  exact if_pos rfl

theorem noByte_setPort {r : PortRegs} (hr : r.xfer = (s.port p).xfer) (q : Port) :
    NoByte (s.port q) ((s.setPort p r).port q) := by
  left
  by_cases hq : q = p
  · rw [hq, port_setPort_same, hr]
  · rw [port_setPort_of_ne _ _ _ _ hq]

/-- A command copies no byte: on a busy port it is dropped, and on an idle one the record it latches is fresh. -/
theorem exec_noByte {i : Instr} (h : exec i s = .next t) (q : Port) : NoByte (s.port q) (t.port q) := by
  by_cases hq : q = i.port
  · subst hq
    obtain ⟨-, rfl⟩ | ⟨-, code, -, rfl⟩ | ⟨hb, hdone⟩ := exec_cases h
    · exact .inl (by simp)
    · exact .inl (by simp)
    · have hnone := (busy_eq_false_iff _ _).1 hb
      obtain ⟨p, rfl, -, -, -, -, rfl⟩ | ⟨rfl, -, rfl⟩ | ⟨rfl, -, rfl⟩ | ⟨p, rfl, -, -, rfl⟩ | ⟨p, v, hi, -, rfl⟩ :=
        hdone
      · exact .inl (by simp [Instr.port])
      · exact .inr ⟨hnone, _, rfl, rfl⟩
      · exact .inr ⟨hnone, _, rfl, rfl⟩
      · exact .inl (by simp [Instr.port])
      · obtain rfl := port_of_mem_queries hi
        exact .inl (by simp)
  · obtain ⟨b, r, -, rfl⟩ := exec_eq_setPort h
    exact .inl (by rw [port_setPort_of_ne _ _ _ _ hq, port_with_buf])

theorem writeCmd_noByte (h : writeCmd p w s = .next t) (q : Port) : NoByte (s.port q) (t.port q) := by
  obtain ⟨i, -, -, hexec⟩ | ⟨r, hr, rfl⟩ := writeCmd_cases h
  · exact exec_noByte hexec q
  · exact noByte_setPort hr q

/-- A step that copies no byte and leaves the buffer and the store's bytes. -/
theorem Fifo.noByte (h : Fifo s ins outs read) (hinv : Inv t) (hbuf : t.buf = s.buf) (hplat : t.plat = s.plat)
    (hports : ∀ q, NoByte (s.port q) (t.port q)) (hmem : ∀ a, InStore s a → t.readByte a = s.readByte a) :
    Fifo t (ins ++ copiedIn s t) (outs ++ copiedOut s t) read := by
  rw [copiedIn_eq_nil (.inl (hports .P)), copiedOut_eq_nil (.inl (hports .C)), List.append_nil, List.append_nil]
  refine h.without_copy hinv (by rw [hbuf]; exact ⟨rfl, rfl, rfl, rfl⟩) (hbuf ▸ h.rc) ?_ ?_ hmem
  · rw [occ_congr hbuf hplat]
    exact congrArg _ (hports .P).progress_eq
  · exact congrArg _ (hports .C).progress_eq

/-! ### Every clean step keeps the order -/

theorem Fifo.engineStep_next (h : Fifo s ins outs read) (hclean : CleanStep s) {rest : List Event}
    (hu : engineStep p { s with agenda := rest } = some u) :
    ∃ read', Fifo u (ins ++ copiedIn s u) (outs ++ copiedOut s u) read' := by
  have h' : Fifo { s with agenda := rest } ins outs read :=
    h.without_copy (h.inv.with_agenda rest) ⟨rfl, rfl, rfl, rfl⟩ h.rc rfl rfl fun _ _ => rfl
  obtain ⟨hother, -⟩ := engineStep_frame hu
  obtain ⟨x, hx, -, hcases⟩ := engineStep_cases hu
  cases p with
  | P =>
    have hout : copiedOut s u = [] := copiedOut_eq_nil (.inl (.inl (congrArg PortRegs.xfer hother)))
    rw [hout, List.append_nil]
    obtain ⟨hk, rfl⟩ | ⟨hk, rfl⟩ := hcases
    · rw [copiedIn_of_copied (s := s) (t := copiedState .P _ x) hx rfl]
      exact ⟨read, h'.enqCopied hx hk⟩
    · have hin : copiedIn s (completedState .P { s with agenda := rest } x) = [] := copiedIn_eq_nil (.inr rfl)
      rw [hin, List.append_nil]
      exact ⟨read, h'.enqCompleted hx hk⟩
  | C =>
    have hin : copiedIn s u = [] := copiedIn_eq_nil (.inl (.inl (congrArg PortRegs.xfer hother)))
    rw [hin, List.append_nil]
    obtain ⟨hk, rfl⟩ | ⟨hk, rfl⟩ := hcases
    · rw [copiedOut_of_copied (s := s) (t := copiedState .C _ x) hx rfl]
      exact ⟨read, h'.deqCopied hx hk (hclean.dst_apart x hx hk)⟩
    · have hout : copiedOut s (completedState .C { s with agenda := rest } x) = [] := copiedOut_eq_nil (.inr rfl)
      rw [hout, List.append_nil]
      exact ⟨_, h'.deqCompleted hx hk⟩

theorem Fifo.step_next (h : Fifo s ins outs read) (hclean : CleanStep s) (hs : step s = .next u) :
    ∃ read', Fifo u (ins ++ copiedIn s u) (outs ++ copiedOut s u) read' := by
  have hinv := h.inv.step_next hs
  obtain ⟨p, w, rest, hagenda, hw⟩ | ⟨p, v, rest, e, -, hset⟩ | ⟨a, v, rest, hagenda, -, rfl⟩ |
    ⟨p, rest, -, he⟩ | ⟨rest, hagenda, -⟩ | ⟨ag, mw, d, -, rfl⟩ := step_cases hs
  · have hbuf : u.buf = s.buf := by
      obtain hbuf | ⟨-, -, ⟨rfl, -⟩ | ⟨rfl, -⟩⟩ := writeCmd_buf_cases hw
      · exact hbuf
      · exact absurd ⟨rest, hagenda⟩ (hclean.no_config p)
      · exact absurd ⟨rest, hagenda⟩ (hclean.no_clear p)
    have hmem : u.mem = s.mem := by
      obtain ⟨b, r, -, rfl⟩ := writeCmd_eq_setPort hw
      rw [mem_setPort]
    exact ⟨read, h.noByte hinv hbuf (step_plat hs) (fun q => port_with_agenda s q rest ▸ writeCmd_noByte hw q)
      fun a _ => readByte_congr hmem a⟩
  · obtain ⟨r, hr, rfl⟩ : ∃ r : PortRegs, r.xfer = (State.port { s with agenda := rest } p).xfer ∧
        u = State.setPort { s with agenda := rest } p r := by
      obtain rfl | rfl | rfl := hset <;> exact ⟨_, by rfl, rfl⟩
    exact ⟨read, h.noByte hinv (buf_setPort _ _ _) (step_plat hs)
      (fun q => port_with_agenda s q rest ▸ noByte_setPort hr q) fun a _ => readByte_congr (mem_setPort _ _ _) a⟩
  · refine ⟨read, h.noByte hinv rfl rfl (fun q => .inl (by cases q <;> rfl)) fun b hb => ?_⟩
    have hne : b ≠ a := fun heq => hclean.no_poke a v rest hagenda (heq ▸ hb)
    exact readByte_writeByte_other _ _ hne
  · exact h.engineStep_next hclean he
  · exact absurd hagenda (hclean.no_reset rest)
  · exact ⟨read, h.noByte hinv rfl rfl (fun q => .inl (by cases q <;> rfl)) fun _ _ => rfl⟩

/-- An empty ring with cursors 0 and both ports idle, before any byte. -/
theorem fifo_start (h : Inv s) (hcfg : s.buf.cfg = true) (hwc : s.buf.wc = 0) (hrc : s.buf.rc = 0)
    (hP : s.busy .P = false) (hC : s.busy .C = false) : Fifo s [] [] 0 := by
  have hxP : s.portP.xfer = none := (busy_eq_false_iff s .P).1 hP
  have hxC : s.portC.xfer = none := (busy_eq_false_iff s .C).1 hC
  refine ⟨h, hcfg, by rw [hrc]; rfl, ?_, ?_, List.prefix_rfl, nofun⟩
  · simp [State.occ, hwc, hrc, progress, hxP]
  · simp [progress, hxC]

/-- Settles O59: `Fifo` holds at the start, every clean step keeps it, and it has the order. -/
theorem fifoOrderIsConserved : Obligations.FifoOrderIsConserved := by
  intro s t ins outs h hcfg hwc hrc hP hC hrun
  have hfifo : ∃ read, Fifo t ins outs read := by
    induction hrun with
    | start => exact ⟨0, fifo_start h hcfg hwc hrc hP hC⟩
    | next _ hclean hstep ih =>
      obtain ⟨read, hread⟩ := ih
      exact hread.step_next hclean hstep
  obtain ⟨read, hread⟩ := hfifo
  exact ⟨hread.first, hread.first.eq_of_length⟩

end Sys2Proof.Machine
end
